-- ==== Sys2Proof/Word.lean ====
section
/-! DEFINITION. The words of the block (00_scope.md R5, R6; 10_state.md R21; 30_encoding.md R70, R72) and the
answer of the output-pin collaborator (42_output_mux.md R174). The arithmetic primitives of R7 stand in
Machine/Bits.lean. -/

namespace Sys2Proof

/-- The raw field of a pattern: `PATTERN_BITS = 32` bits, fixed (R5, R21). -/
abbrev Raw := BitVec 32

/-- The `used` field of a pattern word: 6 bits, 0 to 32 legal, 33 to 63 representable (R5, R70). -/
abbrev Used := BitVec 6

/-- A pattern as a bus value: the 38-bit pattern word (R70). -/
abbrev PatWord := BitVec 38

/-- The one command format `CMD`, 80 bits (R72). -/
abbrev CmdWord := BitVec 80

/-- A pattern, a plain value with no identity beyond its two fields (R21). -/
structure Pattern where
  /-- the steps in extraction order: bit `k` is step `k` (R22) -/
  raw  : Raw
  /-- how many steps are meaningful -/
  used : Used
  deriving DecidableEq, Repr, Inhabited

/-- The output-pin collaborator's answer to one drive event (R174): success, or an opaque error value. The value is
the number on the wires `pin_errval_i`; only its low `EW` bits reach the block (Machine/Ops.lean, `sampleAnswer`). -/
inductive PinAnswer where
  | ok
  | err (e : Nat)
  deriving DecidableEq, Repr, Inhabited

end Sys2Proof
end

