-- ==== Sys2Proof/Syntax.lean ====
section
/-! DEFINITION. The nine commands of 30_encoding.md R71, one constructor per row of spec/opcode_table.json. Operand
fields a command ignores (R74 (e)) are no part of it. The reset event NEW is no command (R71, R80 (a)): it is an input
of the block (Machine/State.lean, `Input.new`). -/

namespace Sys2Proof

/-- A command, with the operands it uses. A term of this type is always encodable: the operand types carry the widths
of the fields of R72. -/
inductive Instr where
  /-- `PFROMRAW bits, used` (R100): `bits` is the caller's integer in written order, no stored `raw` -/
  | pfromraw (bits : Raw) (used : Used)
  /-- `PAPPEND A, B` (R102) -/
  | pappend (a b : Pattern)
  /-- `PREVERSE A` (R104) -/
  | preverse (a : Pattern)
  /-- `PSTEP A` (R106) -/
  | pstep (a : Pattern)
  /-- `ENQUEUE A` (R136) -/
  | enqueue (a : Pattern)
  /-- `TRYENQUEUE A` (R135) -/
  | tryenqueue (a : Pattern)
  /-- `STEP` (R142) -/
  | step
  /-- `TRYSTEP` (R141) -/
  | trystep
  /-- `IDLE` (R145) -/
  | idle
  deriving DecidableEq, Repr, Inhabited

end Sys2Proof
end

