-- ==== Sys2Proof/Machine/AsmSyntax.lean ====
section
/-! DEFINITION. The source language of 30_encoding.md R79 and R80: commands as an assembler reads them, with numbers
as written (not yet narrowed to a field) and the pseudo-operations. What a source command means is in
Machine/Assembler.lean; which numbers fit is in WellFormed.lean. -/

namespace Sys2Proof

/-- A pattern operand: a literal `raw:used`, or a pseudo-operation that the assembler evaluates (R80 (b), (c)). -/
inductive PatExpr where
  | lit (raw used : Nat)
  | pat (bits used : Nat)
  | app (p q : PatExpr)
  | rev (p : PatExpr)
  deriving DecidableEq, Repr, Inhabited

/-- One source line: a command of R79, or `NEW al`, which denotes the reset event and no command word (R80 (a)). -/
inductive SourceCmd where
  | new (al : Nat)
  | pfromraw (bits used : Nat)
  | pappend (a b : PatExpr)
  | preverse (a : PatExpr)
  | pstep (a : PatExpr)
  | enqueue (a : PatExpr)
  | tryenqueue (a : PatExpr)
  | step
  | trystep
  | idle
  deriving DecidableEq, Repr, Inhabited

end Sys2Proof
end

