-- ==== Sys2Proof/Machine/Bits.lean ====
section
/-! DEFINITION. The arithmetic primitives of 00_scope.md R7. Each is total; a shift by 32 gives 0 (D13). -/

namespace Sys2Proof.Machine

/-- `mask(n)`: the 32-bit value `2^n - 1`. -/
def mask (n : Nat) : Raw := BitVec.ofNat 32 (2 ^ n - 1)

/-- `rev32(x)`: bit `i` of the result is bit `31 - i` of `x`. -/
def rev32 (x : Raw) : Raw :=
  (BitVec.ofBoolListLE ((List.range 32).map fun i => x.getLsbD (31 - i))).setWidth 32

/-- `shr32(x, n)`: logical right shift. -/
def shr32 (x : Raw) (n : Nat) : Raw := x >>> n

/-- `shl32(x, n)`: left shift; bits shifted past bit 31 are lost. -/
def shl32 (x : Raw) (n : Nat) : Raw := x <<< n

/-- `ror32(x)`: rotate right by one over all 32 bits (D10). -/
def ror32 (x : Raw) : Raw := x.rotateRight 1

/-- `clamp32(u)`: `min(u, 32)`. -/
def clamp32 (u : Nat) : Nat := min u 32

/-- `satadd32(a, b)`: `min(a + b, 32)`; the sum is compared before it is narrowed (R108 (a)). -/
def satadd32 (a b : Nat) : Nat := min (a + b) 32

end Sys2Proof.Machine
end

