-- ==== Sys2Proof/Machine/Operands.lean ====
section
/-! DEFINITION. How a pattern operand is read (10_state.md R22 to R24; 30_encoding.md R70, R74; 40_pattern_ops.md
R110). A pattern reaches a command whole and unchanged; where a length or a shift amount is needed, `used` is read
through `clamp32`. -/

namespace Sys2Proof

/-- `len(p) = clamp32(p.used)`, the effective length (R23, R110 (a)). -/
def Pattern.len (p : Pattern) : Nat := Machine.clamp32 p.used.toNat

/-- A pattern made from a raw field and a length of at most 32 steps (the `{u[5:0], raw}` of R100, R102, R104). -/
def Pattern.ofLen (raw : Raw) (u : Nat) : Pattern := ⟨raw, BitVec.ofNat 6 u⟩

/-- The pattern word 0: what a response carries when the command has no result pattern (R75). -/
def Pattern.zero : Pattern := ⟨0, 0⟩

/-- The steps of a pattern in the order they are played: step `k` is `raw[k]`, for `k` below the effective length
(R22, R23). -/
def Pattern.steps (p : Pattern) : List Bool := (List.range p.len).map fun k => p.raw.getLsbD k

/-- The canonical form of a pattern: the length clamped, the bits at and above it cleared (R105 (b)). -/
def Pattern.canon (p : Pattern) : Pattern := .ofLen (p.raw &&& Machine.mask p.len) p.len

/-- The 38-bit pattern word: `used` in bits 37:32, `raw` in bits 31:0 (R70). -/
def Pattern.word (p : Pattern) : PatWord := p.used ++ p.raw

/-- The pattern that a pattern word carries (R70). -/
def Pattern.ofWord (w : PatWord) : Pattern := ⟨w.extractLsb' 0 32, w.extractLsb' 32 6⟩

end Sys2Proof
end

