-- ==== Sys2Proof/WellFormed.lean ====
section
/-! DEFINITION. The checks on syntax. A term of `Instr` needs none to be encodable (its operand types are the fields of
R72), and the block runs every one of them, canonical or not (R110, R146). What can be ill formed is

* a pattern operand that the document's constructors could not have produced: not canonical (10_state.md R24);
* a source command whose numbers do not fit the fields of the command word (30_encoding.md R70, R79, R80). -/

namespace Sys2Proof

/-- `used` is in the legal range 0 to 32 (R70; the document's invariant in R24). -/
def Pattern.usedLegal (p : Pattern) : Bool := p.used.toNat ≤ 32

/-- No bit of `raw` is set at position `used` or above (R24). -/
def Pattern.highClear (p : Pattern) : Bool := p.raw >>> p.used.toNat == 0

/-- R24: a pattern is canonical when `used <= 32` and `raw[31:used] = 0`. -/
def Pattern.canonical (p : Pattern) : Bool := p.usedLegal && p.highClear

/-- Every pattern operand of the command is canonical, and the count handed to PFROMRAW is legal: the commands the
document itself can express. The block runs the others too. -/
def Instr.canonical : Instr → Bool
  | .pfromraw _ used => used.toNat ≤ 32
  | .pappend a b     => a.canonical && b.canonical
  | .preverse a      => a.canonical
  | .pstep a         => a.canonical
  | .enqueue a       => a.canonical
  | .tryenqueue a    => a.canonical
  | .step            => true
  | .trystep         => true
  | .idle            => true

/-- The number fits the 32-bit field `raw` (or `bits`). -/
def fitsRaw (n : Nat) : Bool := n < 2 ^ 32

/-- The number fits the 6-bit field `used` (R70: 33 to 63 are representable, so they are accepted). -/
def fitsUsed (n : Nat) : Bool := n < 2 ^ 6

/-- The numbers of a pattern operand fit their fields. -/
def PatExpr.wellFormed : PatExpr → Bool
  | .lit raw used  => fitsRaw raw && fitsUsed used
  | .pat bits used => fitsRaw bits && fitsUsed used
  | .app p q       => p.wellFormed && q.wellFormed
  | .rev p         => p.wellFormed

/-- A source command can be assembled: its numbers fit, and the strap of `NEW al` is 0 or 1 (R80 (a)). -/
def SourceCmd.wellFormed : SourceCmd → Bool
  | .new al             => al < 2
  | .pfromraw bits used => fitsRaw bits && fitsUsed used
  | .pappend a b        => a.wellFormed && b.wellFormed
  | .preverse a         => a.wellFormed
  | .pstep a            => a.wellFormed
  | .enqueue a          => a.wellFormed
  | .tryenqueue a       => a.wellFormed
  | .step               => true
  | .trystep            => true
  | .idle               => true

end Sys2Proof
end

