-- ==== Sys2Proof/Decode.lean ====
section
/-! DEFINITION. The decoder and the encoder of the command word (30_encoding.md R72 to R74, R77, R78;
spec/opcode_table.json). Decoding is total on 80-bit words: a reserved opcode is rejected by name. -/

namespace Sys2Proof

/-- `CW[79:76]`, the opcode; no other field takes part in the selection (R73). -/
def opField (w : CmdWord) : BitVec 4 := w.extractLsb' 76 4

/-- Operand A: `raw = CW[69:38]`, `used = CW[75:70]`, taken without change (R74 (a)). -/
def operandA (w : CmdWord) : Pattern := ⟨w.extractLsb' 38 32, w.extractLsb' 70 6⟩

/-- Operand B: `raw = CW[31:0]`, `used = CW[37:32]`, taken without change (R74 (a)). -/
def operandB (w : CmdWord) : Pattern := ⟨w.extractLsb' 0 32, w.extractLsb' 32 6⟩

/-- Why a command word is no command. -/
inductive DecodeReject where
  /-- the opcode is one of `0x0`, `0x5` to `0x7`, `0xD` to `0xF` (R77) -/
  | reservedOpcode (op : BitVec 4)
  deriving DecidableEq, Repr

/-- R73: the opcode map. Fields a command ignores are not read (R74 (e)). -/
def decode (w : CmdWord) : Except DecodeReject Instr :=
  match (opField w).toNat with
  | 0x1 => .ok (.pfromraw (operandA w).raw (operandA w).used)
  | 0x2 => .ok (.pappend (operandA w) (operandB w))
  | 0x3 => .ok (.preverse (operandA w))
  | 0x4 => .ok (.pstep (operandA w))
  | 0x8 => .ok (.enqueue (operandA w))
  | 0x9 => .ok (.tryenqueue (operandA w))
  | 0xA => .ok .step
  | 0xB => .ok .trystep
  | 0xC => .ok .idle
  | _   => .error (.reservedOpcode (opField w))

/-- The row of spec/opcode_table.json: `width` 80, and `nbits` bits of it given; the bits above are 0. -/
def tableWord (nbits w : Nat) : CmdWord := BitVec.ofNat 80 (w % 2 ^ nbits)

/-- What the decoder reads from a word of the opcode table. The block fetches no bytes: a command travels as one word
on `cmd_i` (R54, R76), so there is no byte order to lay it out in. -/
def decodeTableWord (nbits w : Nat) : Option Instr := (decode (tableWord nbits w)).toOption

/-- The opcode of a command (R73). -/
def Instr.opcode : Instr → BitVec 4
  | .pfromraw _ _ => 0x1
  | .pappend _ _  => 0x2
  | .preverse _   => 0x3
  | .pstep _      => 0x4
  | .enqueue _    => 0x8
  | .tryenqueue _ => 0x9
  | .step         => 0xA
  | .trystep      => 0xB
  | .idle         => 0xC

/-- A command word from its five fields, most significant first (R72). -/
def commandWord (op : BitVec 4) (a b : Pattern) : CmdWord :=
  op ++ a.used ++ a.raw ++ b.used ++ b.raw

/-- The command word of a command; fields it ignores are emitted as zero (R74 (e)). -/
def encode : Instr → CmdWord
  | .pfromraw bits used => commandWord 0x1 ⟨bits, used⟩ .zero
  | .pappend a b        => commandWord 0x2 a b
  | .preverse a         => commandWord 0x3 a .zero
  | .pstep a            => commandWord 0x4 a .zero
  | .enqueue a          => commandWord 0x8 a .zero
  | .tryenqueue a       => commandWord 0x9 a .zero
  | .step               => commandWord 0xA .zero .zero
  | .trystep            => commandWord 0xB .zero .zero
  | .idle               => commandWord 0xC .zero .zero

/-- The bits of the command word that a command reads: all but the `ignored_bits` of its row in
spec/opcode_table.json (R73, R74 (e)). -/
def Instr.significantBits : Instr → CmdWord
  | .pfromraw _ _ => 0xFFFFFFFFFFC000000000
  | .pappend _ _  => 0xFFFFFFFFFFFFFFFFFFFF
  | .preverse _   => 0xFFFFFFFFFFC000000000
  | .pstep _      => 0xFFFFFFFFFFC000000000
  | .enqueue _    => 0xFFFFFFFFFFC000000000
  | .tryenqueue _ => 0xFFFFFFFFFFC000000000
  | .step         => 0xF0000000000000000000
  | .trystep      => 0xF0000000000000000000
  | .idle         => 0xF0000000000000000000

end Sys2Proof
end

