-- ==== Sys2Proof/Config.lean ====
section
/-! DEFINITION. What is fixed for one instance of the block and what stays free. The open parameters `N` and `EW` are
FIELDS of State (`capacity`, `errWidth`), so that every statement over states is a statement over every `N` and every
`EW`; only the values that State.reset gives them stand here. -/

namespace Sys2Proof.Config

/-- The FIFO capacity `N` of the instance that State.reset describes. R5 and D17 leave `N` open (any natural number);
3 is the value of the source's own scenario.
DESIGN CHOICE, unsafe, notes/assumptions/1.md: no statement rests on it. -/
def capacity : Nat := 3

/-- The width `EW` of the pin error value in State.reset: the spec's own default (R5, D16). -/
def errWidth : Nat := 0

/-- The strap `active_low_i` that the reset described by State.reset samples. The spec gives both values and no default.
DESIGN CHOICE, unsafe, notes/assumptions/2.md. -/
def strap : Bool := false

/-- FREE VALUE (R175, U2): what the output-pin collaborator answers to drive event number `n` when the State holds no
answer for it. No body: for every drive event both answers stay possible. notes/assumptions/3.md. -/
opaque pinAnswer : Nat → PinAnswer

end Sys2Proof.Config
end

