-- ==== Sys2Proof/Machine/State.lean ====
section
/-! DEFINITION. The state of the block as plain data: the four registers of 10_state.md R20, and beside them what the
spec makes an input or an output of the block (00_scope.md R9, R10, R12; 30_encoding.md R76): the inputs still to
come, the pin's answers, and the trace of observable events. -/

namespace Sys2Proof.Machine

/-- The content of `CUR` when a pattern is current (R26): the block's private copy, already rotated right `cursor`
times, its `used` field unchanged, and the step cursor (R27). -/
structure Slot where
  raw    : Raw
  used   : Used
  cursor : BitVec 6
  deriving DecidableEq, Repr, Inhabited

/-- The status of a response (R75, R191). -/
inductive Status where
  | ok
  | full
  | pinerr
  | illegal
  deriving DecidableEq, Repr, Inhabited

/-- The response of a command (R75), field by field; its word is `Response.word` (Machine/Ports.lean). -/
structure Response where
  status : Status
  bit    : Bool
  pw     : Pattern
  err    : Nat
  deriving DecidableEq, Repr, Inhabited

/-- What can be observed of the block (R12): a drive event with its level (1 HIGH, 0 LOW), or a response. -/
inductive Event where
  | drive (level : Bool)
  | response (r : Response)
  deriving DecidableEq, Repr

/-- What the caller does to the block (R9 (b), R76): assert reset with the strap `active_low_i`, or issue one command
word on `cmd_i`. -/
inductive Input where
  | new (activeLow : Bool)
  | command (w : CmdWord)
  deriving DecidableEq, Repr

/-- The whole machine. `q`, `cur`, `activeLow` and `pinLvl` are the registers of R20; `capacity` and `errWidth` are the
open parameters `N` and `EW` of R5, which nothing writes; the rest is the block's boundary. -/
structure State where
  /-- `Q`, the FIFO of pending patterns, head first (R25) -/
  q         : List Pattern
  /-- `CUR`, the current slot (R26) -/
  cur       : Option Slot
  /-- `ACTIVE_LOW`, the polarity flag (R28) -/
  activeLow : Bool
  /-- `PINLVL`, the level last commanded, shown on `pin_level_o` (R29) -/
  pinLvl    : Bool
  /-- `N`, the FIFO capacity (R5, D17); the model's own field -/
  capacity  : Nat
  /-- `EW`, the width of the pin error value (R5, D16); the model's own field -/
  errWidth  : Nat
  /-- the block has been reset at least once (R225 (a)); the model's own field -/
  wasReset  : Bool
  /-- what the caller is going to do, in the order it does it (R9 (b), R60); the model's own field -/
  inputs    : List Input
  /-- the pin's answers to the coming drive events, as far as the environment has fixed them (R175); the model's own
  field -/
  answers   : List PinAnswer
  /-- how many drive events there have been: the counter that numbers the free answers; the model's own field -/
  draws     : Nat
  /-- the observable behaviour so far, oldest first (R12); the model's own field -/
  trace     : List Event
  deriving DecidableEq, Repr

/-- Why the machine stops with a fault: never. No command traps, saves state or stops the block (R190; 93: "Nothing in
the block is fault or stuck"), so this type has no constructor. -/
inductive Fault where
  deriving DecidableEq, Repr

/-- Why a step has no meaning. -/
inductive Refusal where
  /-- raised by exec for an instruction that has no meaning yet (none is left); safe -/
  | notModelled (mnemonic : String)
  /-- raised by step for a command issued before the first reset: "before the first reset the state is undefined and
  no command has a meaning" (R225 (a), V2). Unreachable from State.reset; safe -/
  | beforeFirstReset
  deriving DecidableEq, Repr

/-- The machine right after reset (R36, R220): `Q` empty, `CUR` none, `ACTIVE_LOW` the strap, `PINLVL` the inactive
level, and the one drive event that NEW causes. The strap and `N` are DESIGN CHOICE (notes/assumptions/1.md, 2.md);
that no input is waiting and no answer is fixed is notes/assumptions/4.md and 3.md. -/
def State.reset : State where
  q         := []
  cur       := none
  activeLow := Config.strap
  pinLvl    := Config.strap
  capacity  := Config.capacity
  errWidth  := Config.errWidth
  wasReset  := true
  inputs    := []
  answers   := []
  draws     := 1
  trace     := [.drive Config.strap]

end Sys2Proof.Machine
end

