-- ==== Sys2Proof/Machine/Flags.lean ====
section
/-! DEFINITION. The predicates of 10_state.md R30 and the states of 41_sequencer_ops.md R130. The block has no condition
codes and no status flags; these are functions of `CUR` and `Q`, evaluated when asked and never stored. -/

namespace Sys2Proof.Machine

/-- `is_idle = (CUR = none) and (|Q| = 0)`: what IDLE returns (R145). -/
def State.isIdle (s : State) : Bool := s.cur.isNone && s.q.length == 0

/-- `is_loading = (CUR = none) and (|Q| > 0)`. -/
def State.isLoading (s : State) : Bool := s.cur.isNone && decide (0 < s.q.length)

/-- `is_draining = (CUR != none)`. -/
def State.isDraining (s : State) : Bool := s.cur.isSome

/-- The three states of the Sequencer (R130). -/
inductive SeqState where
  | idle
  | loading
  | draining
  deriving DecidableEq, Repr

/-- The table of R130. -/
def State.seqState (s : State) : SeqState :=
  match s.cur, s.q with
  | some _, _      => .draining
  | none,   []     => .idle
  | none,   _ :: _ => .loading

end Sys2Proof.Machine
end

