-- ==== Sys2Proof/Machine/Mux.lean ====
section
/-! DEFINITION. The output mux and the pin port (42_output_mux.md R170 to R179): the level of a step, the pin's answer,
the drive event. The tail of STEP, TRYSTEP and NEW. -/

namespace Sys2Proof.Machine

/-- R170: `level = ACTIVE_LOW xor state`, 1 meaning HIGH. -/
def level (activeLow state : Bool) : Bool := activeLow ^^ state

/-- What the block samples of an answer: `pin_errval_i` has `EW` wires (R76, R174). -/
def sampleAnswer (ew : Nat) : PinAnswer → PinAnswer
  | .ok    => .ok
  | .err e => .err (e % 2 ^ ew)

/-- The collaborator's answer to the next drive event, a free input (R175): the next one of `answers`, or, where the
environment has fixed none, the free value numbered by the drive counter. -/
def State.pinAnswer (s : State) : PinAnswer :=
  sampleAnswer s.errWidth (s.answers.head?.getD (Config.pinAnswer s.draws))

/-- `Drive(level)` with the register write that goes with it (R174, R178): `PINLVL` takes the commanded level whatever
the pin answers, one drive event happens, one answer is used up. -/
def State.drive (s : State) (l : Bool) : State :=
  { s with pinLvl := l, answers := s.answers.tail, draws := s.draws + 1, trace := s.trace ++ [.drive l] }

end Sys2Proof.Machine
end

