-- ==== Sys2Proof/Machine/Ops.lean ====
section
/-! DEFINITION. The named operations over the block's storage and boundary: the response, the FIFO primitives
(20_memory.md R52, R53), the step transition (41_sequencer_ops.md R140), the reset event (70_reset_and_hazards.md
R220), the answer to a reserved opcode (30_encoding.md R77), and taking the caller's next input. The block has no
trap, so there is no exception to take and none to return from (60_exceptions.md R190, R198, R199): a condition is a
status in the response of the command that met it. -/

namespace Sys2Proof.Machine

/-- `resp(status, bit, pw, err)` (R8, R75). -/
def State.respond (s : State) (r : Response) : State := { s with trace := s.trace ++ [.response r] }

/-- The response of a command that has nothing to report: OK and zeros (R75). -/
def Response.done : Response := ⟨.ok, false, .zero, 0⟩

/-- The response that carries a result pattern (PFROMRAW, PAPPEND, PREVERSE) and, for PSTEP, a bit. -/
def Response.result (bit : Bool) (p : Pattern) : Response := ⟨.ok, bit, p, 0⟩

/-- `|Q| < N`: there is room (R135; the current pattern does not count). -/
def State.hasRoom (s : State) : Bool := s.q.length < s.capacity

/-- `Q.push_tail(p)` (R52): the pattern, both fields unchanged, becomes the last element. -/
def State.pushTail (s : State) (p : Pattern) : State := { s with q := s.q ++ [p] }

/-- `Q.push_tail(p)` if there is room, else nothing: the state effect that ENQUEUE and TRYENQUEUE share (R136). -/
def State.offer (s : State) (p : Pattern) : State := if s.hasRoom then s.pushTail p else s

/-- `Q.pop_head()` (R53): the first element and the rest. -/
def popHead : List Pattern → Option (Pattern × List Pattern)
  | []        => none
  | p :: rest => some (p, rest)

/-- A pattern that has just become current: a private copy with cursor 0 (R26, R140 item 1). -/
def Slot.fresh (p : Pattern) : Slot := ⟨p.raw, p.used, 0⟩

/-- The loop of R140 item 1, at most `fuel` pops: pop the head, discard a pattern whose `used` is 0, load the first
other one. The test is on `used` as stored. -/
def loadLoop : Nat → List Pattern → Option Slot × List Pattern
  | 0,        q => (none, q)
  | fuel + 1, q =>
    match popHead q with
    | none           => (none, q)
    | some (p, rest) => if p.used = 0 then loadLoop fuel rest else (some (.fresh p), rest)

/-- R140 item 1: with nothing current, load (as many pops as `Q` has patterns are enough); while a pattern is current
`Q` is not looked at. -/
def loadPhase (cur : Option Slot) (q : List Pattern) : Option Slot × List Pattern :=
  match cur with
  | none   => loadLoop q.length q
  | some c => (some c, q)

/-- The pattern held in the slot, as `pstep` and `len` read it. -/
def Slot.pattern (c : Slot) : Pattern := ⟨c.raw, c.used⟩

/-- `len(CUR) = min(32, CUR.used)` (R23, R140). -/
def Slot.len (c : Slot) : Nat := c.pattern.len

/-- `pstep(p)`: bit 0, and the pattern rotated right by one over 32 bits, `used` unchanged (R106). -/
def pstep (p : Pattern) : Bool × Pattern := (p.raw.getLsbD 0, ⟨ror32 p.raw, p.used⟩)

/-- R140 item 2 on the slot: extract one step, advance the cursor, drop the pattern when its length is reached. -/
def Slot.advance (c : Slot) : Bool × Option Slot :=
  let r := pstep c.pattern
  (r.1, if c.len ≤ c.cursor.toNat + 1 then none else some ⟨r.2.raw, c.used, c.cursor + 1⟩)

/-- R140 items 2 and 3: extract from what is current; with nothing current the value is "inactive". -/
def extractPhase : Option Slot → Bool × Option Slot
  | none   => (false, none)
  | some c => c.advance

/-- `seq_step()` (R140): the logical value of this step, and the state with `Q` and `CUR` updated. No drive. -/
def seqStep (s : State) : Bool × State :=
  let l := loadPhase s.cur s.q
  let e := extractPhase l.1
  (e.1, { s with cur := e.2, q := l.2 })

/-- The step transition with its drive event, which comes last (R61, R141): what STEP and TRYSTEP share. -/
def State.advance (s : State) : State :=
  let r := seqStep s
  r.2.drive (level r.2.activeLow r.1)

/-- NEW, the reset event (R220), from any state (R222): all registers written, one drive event to the inactive level,
its answer discarded, no response. -/
def State.renew (s : State) (al : Bool) : State :=
  { s with activeLow := al, q := [], cur := none, wasReset := true }.drive (level al false)

/-- A command word with a reserved opcode: no state change, no drive event, `status = ILLEGAL`, all other response
fields zero; not fatal (R77, R195). -/
def State.respondIllegal (s : State) : State := s.respond ⟨.illegal, false, .zero, 0⟩

/-- The state with what the caller is going to do replaced. -/
def State.withInputs (s : State) (rest : List Input) : State := { s with inputs := rest }

/-- The caller's next action, taken from the inputs, and the state without it; none while the caller does nothing. -/
def State.takeInput (s : State) : Option (Input × State) :=
  match s.inputs with
  | []        => none
  | i :: rest => some (i, s.withInputs rest)

/-- The caller issues the command word next, before anything else it was going to do, to a block that has been
reset. -/
def State.issue (s : State) (w : CmdWord) : State := { s with inputs := .command w :: s.inputs, wasReset := true }

end Sys2Proof.Machine
end

