-- ==== Sys2Proof/Machine/PatternUnit.lean ====
section
/-! DEFINITION. The pattern unit (40_pattern_ops.md R100 to R110): three pure constructors, the single-step extraction
(`pstep`, in Ops.lean because the Sequencer shares it), and the meanings of the four commands, which answer and change
nothing else (R109). -/

namespace Sys2Proof.Machine

/-- The reverse-and-right-align step that construction and reversal share (R101 (c)). -/
def reverseLow (x : Raw) (u : Nat) : Raw := shr32 (rev32 x) (32 - u)

/-- R100: most significant meaningful bit first (C1, D9), `used` above 32 clamped (C4, D11). -/
def fromRaw (bits : Raw) (used : Used) : Pattern :=
  let u := clamp32 used.toNat
  .ofLen (reverseLow bits u) u

/-- R102: A's steps, then B's, truncated silently at 32. -/
def append (a b : Pattern) : Pattern :=
  .ofLen (a.raw ||| shl32 b.raw a.len) (satadd32 a.len b.len)

/-- R104: the same length, the step order reversed. -/
def reverse (a : Pattern) : Pattern := .ofLen (reverseLow a.raw a.len) a.len

/-- PFROMRAW (R100). -/
def execPfromraw (bits : Raw) (used : Used) (s : State) : Host.Outcome State Fault Refusal :=
  .next (s.respond (.result false (fromRaw bits used)))

/-- PAPPEND (R102). -/
def execPappend (a b : Pattern) (s : State) : Host.Outcome State Fault Refusal :=
  .next (s.respond (.result false (append a b)))

/-- PREVERSE (R104). -/
def execPreverse (a : Pattern) (s : State) : Host.Outcome State Fault Refusal :=
  .next (s.respond (.result false (reverse a)))

/-- PSTEP (R106), on a copy of the operand: the extracted step and the rotated pattern. -/
def execPstep (a : Pattern) (s : State) : Host.Outcome State Fault Refusal :=
  let r := pstep a
  .next (s.respond (.result r.1 r.2))

end Sys2Proof.Machine
end

