-- ==== Sys2Proof/Machine/Sequencer.lean ====
section
/-! DEFINITION. The Sequencer's commands (41_sequencer_ops.md R135, R136, R141, R142, R145). -/

namespace Sys2Proof.Machine

/-- TRYENQUEUE (R135): queued and OK, or FULL with the operand handed back unchanged and nothing else changed. -/
def execTryenqueue (a : Pattern) (s : State) : Host.Outcome State Fault Refusal :=
  .next ((s.offer a).respond (if s.hasRoom then .done else ⟨.full, false, a, 0⟩))

/-- ENQUEUE (R136): the same state effect, always OK; with no room the pattern is dropped silently. -/
def execEnqueue (a : Pattern) (s : State) : Host.Outcome State Fault Refusal :=
  .next ((s.offer a).respond .done)

/-- What TRYSTEP reports of the pin's answer: OK, or PINERR with the opaque error value (R141, R176). -/
def pinReport : PinAnswer → Response
  | .ok    => .done
  | .err e => ⟨.pinerr, false, .zero, e⟩

/-- TRYSTEP (R141): the step transition, the drive event, then the pin's answer reported. -/
def execTrystep (s : State) : Host.Outcome State Fault Refusal :=
  .next (s.advance.respond (pinReport s.pinAnswer))

/-- STEP (R142): the same transition and drive event; the pin's answer is discarded. -/
def execStep (s : State) : Host.Outcome State Fault Refusal :=
  .next (s.advance.respond .done)

/-- IDLE (R145): `is_idle`, evaluated at the command. -/
def execIdle (s : State) : Host.Outcome State Fault Refusal :=
  .next (s.respond ⟨.ok, s.isIdle, .zero, 0⟩)

end Sys2Proof.Machine
end

