-- ==== Sys2Proof/Machine/Dispatch.lean ====
section
/-! DEFINITION. One arm per command. -/

namespace Sys2Proof.Machine

def exec (i : Instr) (s : State) : Host.Outcome State Fault Refusal :=
  match i with
  | .pfromraw bits used => Sys2Proof.Machine.execPfromraw bits used s
  | .pappend a b => Sys2Proof.Machine.execPappend a b s
  | .preverse a => Sys2Proof.Machine.execPreverse a s
  | .pstep a => Sys2Proof.Machine.execPstep a s
  | .enqueue a => Sys2Proof.Machine.execEnqueue a s
  | .tryenqueue a => Sys2Proof.Machine.execTryenqueue a s
  | .step => Sys2Proof.Machine.execStep s
  | .trystep => Sys2Proof.Machine.execTrystep s
  | .idle => Sys2Proof.Machine.execIdle s

end Sys2Proof.Machine
end

