-- ==== Sys2Proof/Machine/Step.lean ====
section
/-! DEFINITION. One step: the block takes the caller's next action and performs it as one atomic transition
(00_scope.md R9; 20_memory.md R60). While the caller does nothing, nothing changes ("no background activity"). -/

namespace Sys2Proof.Machine

/-- One accepted command word: the command it encodes, or the ILLEGAL answer (R75, R77). -/
def runWord (w : CmdWord) (s : State) : Host.Outcome State Fault Refusal :=
  match decode w with
  | .ok i    => exec i s
  | .error _ => .next s.respondIllegal

/-- One step of the machine. A command has a meaning only after the first reset (R225 (a)). -/
def step (s : State) : Host.Outcome State Fault Refusal :=
  match s.takeInput with
  | none                 => .next s
  | some (.new al, t)    => .next (t.renew al)
  | some (.command w, t) => if t.wasReset then runWord w t else .refused .beforeFirstReset

/-- The block fetches nothing (R27): its next command is the next word the caller issues. -/
def State.withFetchWord (s : State) (nbits w : Nat) : State := s.issue (tableWord nbits w)

end Sys2Proof.Machine
end

