-- ==== Sys2Proof/Machine/Assembler.lean ====
section
/-! DEFINITION. The textual syntax and the pseudo-operations of 30_encoding.md R79, R80 (D27): from a line of text to
what the caller does with it. White space between tokens, and decimal for `bits`, are DESIGN CHOICE
(notes/assumptions/6.md). -/

namespace Sys2Proof

/-- The pattern a pattern operand denotes: a literal as written, `pat` by the function of R100, `app` and `rev` by
those of R102 and R104 (R80 (b), (c)). -/
def PatExpr.eval : PatExpr → Pattern
  | .lit raw used  => ⟨BitVec.ofNat 32 raw, BitVec.ofNat 6 used⟩
  | .pat bits used => Machine.fromRaw (BitVec.ofNat 32 bits) (BitVec.ofNat 6 used)
  | .app p q       => Machine.append p.eval q.eval
  | .rev p         => Machine.reverse p.eval

/-- What a source line makes the caller do: `NEW al` asserts reset with the strap `al` (R80 (a)), every other line
issues the command word of its command (R79). -/
def SourceCmd.action : SourceCmd → Machine.Input
  | .new al             => .new (al == 1)
  | .pfromraw bits used => .command (encode (.pfromraw (BitVec.ofNat 32 bits) (BitVec.ofNat 6 used)))
  | .pappend a b        => .command (encode (.pappend a.eval b.eval))
  | .preverse a         => .command (encode (.preverse a.eval))
  | .pstep a            => .command (encode (.pstep a.eval))
  | .enqueue a          => .command (encode (.enqueue a.eval))
  | .tryenqueue a       => .command (encode (.tryenqueue a.eval))
  | .step               => .command (encode .step)
  | .trystep            => .command (encode .trystep)
  | .idle               => .command (encode .idle)

/-- Assembling one source line; a line whose numbers do not fit is refused. -/
def SourceCmd.assemble (c : SourceCmd) : Option Machine.Input :=
  if c.wellFormed then some c.action else none

namespace Asm

/-- A token of a source line. -/
inductive Token where
  | name (cs : List Char)
  | num (base value : Nat)
  | colon
  | comma
  | lparen
  | rparen
  deriving DecidableEq, Repr

/-- The value of a digit, in either letter case for hexadecimal. -/
def digitValue (c : Char) : Option Nat :=
  let n := c.toNat
  if 48 ≤ n ∧ n ≤ 57 then some (n - 48)
  else if 97 ≤ n ∧ n ≤ 102 then some (n - 87)
  else if 65 ≤ n ∧ n ≤ 70 then some (n - 55)
  else none

/-- The number a digit string denotes in a base, its leftmost digit the most significant (R6, G1). -/
def digits (base : Nat) : Nat → List Char → Option Nat
  | acc, []      => some acc
  | acc, c :: cs =>
    match digitValue c with
    | some d => if d < base then digits base (base * acc + d) cs else none
    | none   => none

/-- A word is a number when it begins with a digit (`0x` hexadecimal, `0b` binary, else decimal; R6), else a name. -/
def classify : List Char → Option Token
  | '0' :: 'x' :: d :: ds => (digits 16 0 (d :: ds)).map (.num 16)
  | '0' :: 'b' :: d :: ds => (digits 2 0 (d :: ds)).map (.num 2)
  | c :: cs =>
    if c.isDigit then (digits 10 0 (c :: cs)).map (.num 10)
    else if c.isAlpha then some (.name (c :: cs))
    else none
  | [] => none

/-- The tokens with the pending word (held reversed) put in front. -/
def flush (word : List Char) (rest : Option (List Token)) : Option (List Token) :=
  match word with
  | []     => rest
  | _ :: _ => (classify word.reverse).bind fun t => rest.map (t :: ·)

/-- The tokens of a line; `;` begins a comment (R79). `word` is the word being read, reversed. -/
def tokens : List Char → List Char → Option (List Token)
  | word, []      => flush word (some [])
  | word, c :: cs =>
    if c = ';' then flush word (some [])
    else if c = ' ' ∨ c = '\t' then flush word (tokens [] cs)
    else if c = ':' then flush word ((tokens [] cs).map (.colon :: ·))
    else if c = ',' then flush word ((tokens [] cs).map (.comma :: ·))
    else if c = '(' then flush word ((tokens [] cs).map (.lparen :: ·))
    else if c = ')' then flush word ((tokens [] cs).map (.rparen :: ·))
    else tokens (c :: word) cs

/-- Take one given token from the front. -/
def expect (t : Token) : List Token → Option (List Token)
  | []      => none
  | u :: us => if u = t then some us else none

/-- `bits, used` in that order, `used` in decimal (R79). -/
def parsePair : List Token → Option ((Nat × Nat) × List Token)
  | .num _ bits :: .comma :: .num base used :: ts => if base = 10 then some ((bits, used), ts) else none
  | _ => none

/-- A pattern operand: `raw:used` with `raw` in hexadecimal or binary and `used` in decimal (R79), or `pat(bits, used)`,
`app(P, Q)`, `rev(P)` (R80). The first argument bounds the nesting. -/
def parsePattern : Nat → List Token → Option (PatExpr × List Token)
  | 0, _ => none
  | _ + 1, .num base raw :: .colon :: .num base' used :: ts =>
    if base ≠ 10 ∧ base' = 10 then some (.lit raw used, ts) else none
  | fuel + 1, .name f :: .lparen :: ts =>
    if f = "pat".toList then do
      let ((bits, used), ts) ← parsePair ts
      let ts ← expect .rparen ts
      pure (.pat bits used, ts)
    else if f = "app".toList then do
      let (p, ts) ← parsePattern fuel ts
      let ts ← expect .comma ts
      let (q, ts) ← parsePattern fuel ts
      let ts ← expect .rparen ts
      pure (.app p q, ts)
    else if f = "rev".toList then do
      let (p, ts) ← parsePattern fuel ts
      let ts ← expect .rparen ts
      pure (.rev p, ts)
    else none
  | _ + 1, _ => none

/-- Nothing may follow the operands. -/
def finish {α : Type} : Option (α × List Token) → Option α
  | some (a, []) => some a
  | _            => none

/-- The one pattern operand of PREVERSE, PSTEP, ENQUEUE, TRYENQUEUE. -/
def parseOne (ts : List Token) : Option PatExpr := finish (parsePattern ts.length ts)

/-- The two pattern operands of PAPPEND. -/
def parseTwo (ts : List Token) : Option (PatExpr × PatExpr) := do
  let (a, ts) ← parsePattern ts.length ts
  let ts ← expect .comma ts
  let b ← parseOne ts
  pure (a, b)

/-- The mnemonic, in capitals, and its operands (R71, R79); `NEW al` with `al` 0 or 1 (R80 (a)). -/
def parseCommand (m : List Char) (ts : List Token) : Option SourceCmd :=
  if m = "PFROMRAW".toList then (finish (parsePair ts)).map fun p => .pfromraw p.1 p.2
  else if m = "PAPPEND".toList then (parseTwo ts).map fun p => .pappend p.1 p.2
  else if m = "PREVERSE".toList then (parseOne ts).map .preverse
  else if m = "PSTEP".toList then (parseOne ts).map .pstep
  else if m = "ENQUEUE".toList then (parseOne ts).map .enqueue
  else if m = "TRYENQUEUE".toList then (parseOne ts).map .tryenqueue
  else match ts with
    | [.num _ al] => if m = "NEW".toList then some (.new al) else none
    | _ :: _      => none
    | []          =>
      if m = "STEP".toList then some .step
      else if m = "TRYSTEP".toList then some .trystep
      else if m = "IDLE".toList then some .idle
      else none

/-- One line of source: `none` where it is no line of the language, `some none` where it holds no command. -/
def parseLine (line : List Char) : Option (Option SourceCmd) :=
  match tokens [] line with
  | some []              => some none
  | some (.name m :: ts) => (parseCommand m ts).map some
  | _                    => none

/-- What the caller does for one line of source, if the line is a command that can be assembled. -/
def assembleLine (line : List Char) : Option Machine.Input :=
  match parseLine line with
  | some (some c) => c.assemble
  | _             => none

end Asm

end Sys2Proof
end

