-- ==== Sys2Proof/Machine/Ports.lean ====
section
/-! DEFINITION. The block's boundary as words and sequences (30_encoding.md R75, R76; 00_scope.md R12). -/

namespace Sys2Proof.Machine

/-- The status codes of R75. -/
def Status.code : Status → BitVec 2
  | .ok      => 0
  | .full    => 1
  | .pinerr  => 2
  | .illegal => 3

/-- The response word `RW` of `41 + EW` bits: `pw` in 37:0, `bit` in 38, `status` in 40:39, `err` above (R75). -/
def Response.word (ew : Nat) (r : Response) : BitVec (ew + 41) :=
  BitVec.ofNat ew r.err ++ (r.status.code ++ BitVec.ofBool r.bit ++ r.pw.word)

/-- The level of an event, if it is a drive event. -/
def Event.level? : Event → Option Bool
  | .drive l    => some l
  | .response _ => none

/-- The response of an event, if it is one. -/
def Event.response? : Event → Option Response
  | .drive _    => none
  | .response r => some r

/-- The sequence of drive events so far (R12 (a)). -/
def State.drives (s : State) : List Bool := s.trace.filterMap Event.level?

/-- The sequence of responses so far (R12 (b)). -/
def State.responses (s : State) : List Response := s.trace.filterMap Event.response?

/-- `pin_level_o` shows `PINLVL` at all times (R178). -/
def State.pinLevelO (s : State) : Bool := s.pinLvl

end Sys2Proof.Machine
end

