-- ==== Sys2Proof/Safety.lean ====
section
/-! DEFINITION. The terms claims use: the invariant of reachable states (10_state.md R34), runs, and what a state still
has to play (41_sequencer_ops.md R147, R148). -/

namespace Sys2Proof.Machine

/-- `pstep` applied `k` times (R107). -/
def pstepIter : Nat → Pattern → Pattern
  | 0,     p => p
  | k + 1, p => pstepIter k (pstep p).2

/-- I-2 and I-3 for a slot: it holds at least one step, and the cursor is below its length. -/
def Slot.valid (c : Slot) : Bool := decide (1 ≤ c.len) && decide (c.cursor.toNat < c.len)

/-- What R75 says of the fields of every response: each field its command does not set is zero, and the error value
fits `EW` bits. -/
def Response.wellFormed (ew : Nat) (r : Response) : Bool :=
  match r.status with
  | .ok      => r.err == 0
  | .full    => !r.bit && r.err == 0
  | .pinerr  => !r.bit && r.pw == .zero && decide (r.err < 2 ^ ew)
  | .illegal => !r.bit && r.pw == .zero && r.err == 0

/-- The states a run from reset can reach satisfy this (R34, I-1, I-2, I-3, I-6, and R75 for the responses). I-4 and
I-5 speak of what happened before; they are statements about steps. -/
abbrev State.Inv (s : State) : Prop :=
  s.wasReset = true ∧
  s.q.length ≤ s.capacity ∧
  s.cur.all Slot.valid = true ∧
  s.drives.getLast? = some s.pinLvl ∧
  s.responses.all (Response.wellFormed s.errWidth) = true

/-- I-4: the slot is the dequeued pattern `p`, rotated right `cursor` times, its `used` field unchanged (R26, R34). -/
def Slot.copyOf (c : Slot) (p : Pattern) : Prop := c.used = p.used ∧ c.raw = (pstepIter c.cursor.toNat p).raw

/-- Commands performed one after the other (R60), stopping at the first that does not give a next state. -/
def runInstrs : List Instr → State → Host.Outcome State Fault Refusal
  | [],      s => .next s
  | i :: is, s =>
    match exec i s with
    | .next t    => runInstrs is t
    | .fault f   => .fault f
    | .refused r => .refused r

/-- A number of steps of the machine. -/
def runSteps : Nat → State → Host.Outcome State Fault Refusal
  | 0,     s => .next s
  | n + 1, s =>
    match step s with
    | .next t    => runSteps n t
    | .fault f   => .fault f
    | .refused r => .refused r

/-- The steps left in the current pattern: bit `k` of the rotated field for the `len - cursor` steps to come. -/
def Slot.remaining (c : Slot) : List Bool :=
  (List.range (c.len - c.cursor.toNat)).map fun k => c.raw.getLsbD k

/-- All steps still to be played: those left in `CUR`, then those of every queued pattern, in order; an empty pattern
has none (R147, R148: its length is `T`). -/
def State.playlist (s : State) : List Bool :=
  (match s.cur with | none => [] | some c => c.remaining) ++ s.q.flatMap Pattern.steps

/-- `z` of R148: 1 if the last queued pattern is empty. -/
def trailingEmpty (q : List Pattern) : Nat :=
  match q.getLast? with
  | some p => if p.used = 0 then 1 else 0
  | none   => 0

/-- `T + z` of R148: after how many step commands the block is idle. -/
def State.drainTime (s : State) : Nat := s.playlist.length + trailingEmpty s.q

/-- A response with the pin's answer blotted out: PINERR and OK of a TRYSTEP look the same (R175). -/
def Response.withoutPin (r : Response) : Response :=
  match r.status with
  | .pinerr => { r with status := .ok, err := 0 }
  | _       => r

/-- The slot after a step has been extracted from `raw` and the cursor has become `n`: gone when `n` has reached
`len = min(32, used)`, else rotated right by one (R140 item 2). Written from the rule, not from the meanings. -/
def slotAfter (raw : Raw) (used : Used) (n : Nat) : Option Slot :=
  if min used.toNat 32 ≤ n then none else some ⟨raw.rotateRight 1, used, BitVec.ofNat 6 n⟩

/-- The state a step command leaves, its bookkeeping of the pin's answers apart: `value` is the step played, `cur` and
`q` the registers after it, `r` the response; one drive event to `ACTIVE_LOW xor value`, then the response; nothing
else changed (R141, R142). -/
def State.afterStep (s : State) (value : Bool) (cur : Option Slot) (q : List Pattern) (r : Response) : State :=
  { s with
    cur := cur, q := q, pinLvl := s.activeLow ^^ value,
    trace := s.trace ++ [.drive (s.activeLow ^^ value), .response r] }

/-- The state `t` up to the model's own account of the pin's answers (notes/assumptions/3.md). -/
def NextUpToAnswers (o : Host.Outcome State Fault Refusal) (t : State) : Prop :=
  ∃ as d, o = .next { t with answers := as, draws := d }

/-- The step transition of R140 in its three cases, for a step command `i` that answers `r`: nothing to play; a pattern
loaded behind a run of empty ones and its step 0 played; a step of the current pattern. The cases cover every state. -/
def StepsAs (i : Instr) (s : State) (r : Response) : Prop :=
  (s.cur = none → (∀ p ∈ s.q, p.used = 0) → NextUpToAnswers (exec i s) (s.afterStep false none [] r)) ∧
  (∀ z p rest, s.cur = none → s.q = z ++ p :: rest → (∀ p' ∈ z, p'.used = 0) → p.used ≠ 0 →
    NextUpToAnswers (exec i s) (s.afterStep (p.raw.getLsbD 0) (slotAfter p.raw p.used 1) rest r)) ∧
  (∀ c, s.cur = some c →
    NextUpToAnswers (exec i s)
      (s.afterStep (c.raw.getLsbD 0) (slotAfter c.raw c.used (c.cursor.toNat + 1)) s.q r))

end Sys2Proof.Machine
end

