-- ==== Sys2Proof/Certificates/Slice0/Obligations.lean ====
section
/-! DEFINITION. The statements for the provers. Each docstring names the rule of spec/ it formalises. A statement about
a pin answer that the environment has not fixed holds for every value of the free value `Config.pinAnswer`; none rests
on the values that State.reset gives `N`, `EW` or the strap, except where its docstring says so. -/

open Sys2Proof Sys2Proof.Machine

/-! ### Encodings (30_encoding.md) -/

/-- R72, R74: no bit of a command is lost between the encoder and the decoder, at any operand value. -/
def Obligations.DecodeOfEncodeIsIdentity : Prop := ∀ i : Instr, decode (encode i) = .ok i

/-- R74 (e): a word that decodes is the encoding of what it decodes to, once the fields its command ignores are zero;
so ignored fields do not affect decoding and every other bit does. -/
def Obligations.EncodeOfDecodeClearsIgnoredFields : Prop :=
  ∀ (w : CmdWord) (i : Instr), decode w = .ok i → encode i = w &&& i.significantBits

/-- R73 with R74 (a): the opcode map, all sixteen values of `CW[79:76]`; the operands are the slices of R72. -/
def Obligations.OpcodeMapSelectsTheCommand : Prop :=
  ∀ w : CmdWord,
    let a : Pattern := ⟨w.extractLsb' 38 32, w.extractLsb' 70 6⟩
    let b : Pattern := ⟨w.extractLsb' 0 32, w.extractLsb' 32 6⟩
    let op := w.extractLsb' 76 4
    (op = 0x1 → decode w = .ok (.pfromraw a.raw a.used)) ∧
    (op = 0x2 → decode w = .ok (.pappend a b)) ∧
    (op = 0x3 → decode w = .ok (.preverse a)) ∧
    (op = 0x4 → decode w = .ok (.pstep a)) ∧
    (op = 0x8 → decode w = .ok (.enqueue a)) ∧
    (op = 0x9 → decode w = .ok (.tryenqueue a)) ∧
    (op = 0xA → decode w = .ok .step) ∧
    (op = 0xB → decode w = .ok .trystep) ∧
    (op = 0xC → decode w = .ok .idle) ∧
    (op ∈ [0x0, 0x5, 0x6, 0x7, 0xD, 0xE, 0xF] → decode w = .error (.reservedOpcode op))

/-- Words written out in the spec's own tables (95_test_vectors.md, part 2: V1 to V9; the TRYSTEP word part 3: P3)
decode to the commands they stand for. -/
def Obligations.WordsOfTheTestVectorsDecode : Prop :=
  decode 0x10C00000018000000000 = .ok (.pfromraw 0b110 3) ∧
  decode 0x20C00000014200000001 = .ok (.pappend ⟨5, 3⟩ ⟨1, 2⟩) ∧
  decode 0x30C0000000C000000000 = .ok (.preverse ⟨3, 3⟩) ∧
  decode 0x40C00000014000000000 = .ok (.pstep ⟨5, 3⟩) ∧
  decode 0x8A000000014000000000 = .ok (.enqueue ⟨5, 40⟩) ∧
  decode 0x9A000000014000000000 = .ok (.tryenqueue ⟨5, 40⟩) ∧
  decode 0xA2448D159E119ABCDEF0 = .ok .step ∧
  decode 0xB0000000000000000000 = .ok .trystep ∧
  decode 0xC0000000000000000000 = .ok .idle ∧
  decode 0x50000000000000000000 = .error (.reservedOpcode 5)

/-- R70: the pattern word, `used` in bits 37:32 above `raw` in bits 31:0, packs and unpacks without loss. -/
def Obligations.PatternWordPacksUsedAboveRaw : Prop :=
  (∀ p : Pattern, p.word.extractLsb' 32 6 = p.used ∧ p.word.extractLsb' 0 32 = p.raw ∧ Pattern.ofWord p.word = p) ∧
  ∀ w : PatWord, (Pattern.ofWord w).word = w

/-- R75: the places of the fields of the response word, for every `EW`, and the four status codes. -/
def Obligations.ResponseWordFieldsStandWhereTheSpecPutsThem : Prop :=
  (∀ (ew : Nat) (r : Response),
    (r.word ew).extractLsb' 0 38 = r.pw.word ∧
    (r.word ew).getLsbD 38 = r.bit ∧
    (r.word ew).extractLsb' 39 2 = r.status.code ∧
    ((r.word ew).extractLsb' 41 ew).toNat = r.err % 2 ^ ew) ∧
  Status.code .ok = 0 ∧ Status.code .full = 1 ∧ Status.code .pinerr = 2 ∧ Status.code .illegal = 3

/-- R80 (b), (c): `pat`, `app` and `rev` in operand position are evaluated by the assembler with the functions of R100,
R102 and R104, and the word it emits is that of the evaluated operand, for each of the five commands that take a pattern
operand (PAPPEND takes two); a literal `raw:used` denotes itself (R79). -/
def Obligations.PseudoOperandsAreEvaluatedByTheAssembler : Prop :=
  (∀ e : PatExpr, e.wellFormed = true →
    (∃ w, (SourceCmd.preverse e).assemble = some (.command w) ∧ decode w = .ok (.preverse e.eval)) ∧
    (∃ w, (SourceCmd.pstep e).assemble = some (.command w) ∧ decode w = .ok (.pstep e.eval)) ∧
    (∃ w, (SourceCmd.enqueue e).assemble = some (.command w) ∧ decode w = .ok (.enqueue e.eval)) ∧
    (∃ w, (SourceCmd.tryenqueue e).assemble = some (.command w) ∧ decode w = .ok (.tryenqueue e.eval))) ∧
  (∀ e f : PatExpr, e.wellFormed = true → f.wellFormed = true →
    ∃ w, (SourceCmd.pappend e f).assemble = some (.command w) ∧ decode w = .ok (.pappend e.eval f.eval)) ∧
  (∀ (raw : Raw) (used : Used), (PatExpr.lit raw.toNat used.toNat).eval = ⟨raw, used⟩) ∧
  (∀ (bits : Raw) (used : Used), (PatExpr.pat bits.toNat used.toNat).eval = fromRaw bits used) ∧
  (∀ p q : PatExpr, (PatExpr.app p q).eval = append p.eval q.eval) ∧
  (∀ p : PatExpr, (PatExpr.rev p).eval = reverse p.eval)

/-! ### One step of the machine (00_scope.md R9, 20_memory.md R60, 70_reset_and_hazards.md) -/

/-- A step runs the command that the caller's next word encodes, on the state without that word; and a word placed for
the block to take next is run by the very next step. -/
def Obligations.StepPerformsTheDecodedCommand : Prop :=
  (∀ (s : State) (w : CmdWord) (rest : List Input) (i : Instr),
    s.inputs = .command w :: rest → s.wasReset = true → decode w = .ok i →
    step s = exec i { s with inputs := rest }) ∧
  (∀ (s : State) (nbits w : Nat) (i : Instr),
    decodeTableWord nbits w = some i → step (s.withFetchWord nbits w) = exec i { s with wasReset := true })

/-- R77, R195: a reserved opcode is answered ILLEGAL with all other response fields zero, changes no state, causes no
drive event and is not fatal: the machine goes on with the next input. -/
def Obligations.ReservedOpcodeIsAnsweredIllegalAndChangesNothing : Prop :=
  ∀ (s : State) (w : CmdWord) (rest : List Input),
    s.inputs = .command w :: rest → s.wasReset = true →
    w.extractLsb' 76 4 ∈ [0x0, 0x5, 0x6, 0x7, 0xD, 0xE, 0xF] →
    step s = .next { s with inputs := rest, trace := s.trace ++ [.response ⟨.illegal, false, ⟨0, 0⟩, 0⟩] }

/-- R60 (d), R9: nothing changes while the caller does nothing. -/
def Obligations.NothingChangesBetweenCommands : Prop := ∀ s : State, s.inputs = [] → step s = .next s

/-- R225 (a), V2: a command issued before the first reset has no meaning. -/
def Obligations.CommandBeforeTheFirstResetIsRefused : Prop :=
  ∀ (s : State) (w : CmdWord) (rest : List Input),
    s.inputs = .command w :: rest → s.wasReset = false → step s = .refused .beforeFirstReset

/-- R220, R222: NEW writes every register, from any state and whatever the pin answers, and causes one drive event to
the inactive level; there is no response, and afterwards the block is Idle. (That the input is used up, and that the
parameters stay, is `StepTakesOneInputAndKeepsTheParameters`.) -/
def Obligations.NewWritesEveryRegisterAndDrivesInactive : Prop :=
  ∀ (s : State) (al : Bool) (rest : List Input), s.inputs = .new al :: rest →
    ∃ t, step s = .next t ∧ t.activeLow = al ∧ t.q = [] ∧ t.cur = none ∧ t.pinLvl = al ∧
      t.trace = s.trace ++ [.drive al] ∧ t.isIdle = true

/-- The model's own account of the pin's answers (DESIGN CHOICE, notes/assumptions/3.md): each drive event, of NEW or of
a step command, uses up one answer and counts one draw; no other command touches either. -/
def Obligations.EachDriveEventUsesUpOneAnswer : Prop :=
  (∀ (s : State) (al : Bool) (rest : List Input), s.inputs = .new al :: rest →
    ∃ t, step s = .next t ∧ t.answers = s.answers.tail ∧ t.draws = s.draws + 1 ∧ t.wasReset = true) ∧
  ∀ (s : State) (i : Instr), ∃ t, exec i s = .next t ∧
    (i = .step ∨ i = .trystep → t.answers = s.answers.tail ∧ t.draws = s.draws + 1) ∧
    (¬ (i = .step ∨ i = .trystep) → t.answers = s.answers ∧ t.draws = s.draws)

/-- R36: the values after reset, the strap being the one the model names (notes/assumptions/2.md): `Q` empty, `CUR`
none, the polarity the strap, the level the inactive one, Idle, and the one drive event of NEW. -/
def Obligations.ResetLeavesTheValuesOfTheTable : Prop :=
  State.reset.q = [] ∧ State.reset.cur = none ∧ State.reset.activeLow = Config.strap ∧
  State.reset.pinLvl = State.reset.activeLow ∧ State.reset.seqState = .idle ∧ State.reset.isIdle = true ∧
  State.reset.drives = [State.reset.activeLow] ∧ State.reset.responses = []

/-- R190: no command traps or stops the block; once it has been reset every step gives a next state, and it stays
reset. -/
def Obligations.NoStepStopsAResetBlock : Prop :=
  ∀ s : State, s.wasReset = true → ∃ t, step s = .next t ∧ t.wasReset = true

/-- R60 (a), R5: a step takes at most the caller's next action, in the order issued, and the parameters `N` and `EW` are
fixed for the life of the instance. That they also stay the same across a later NEW, which R222 likens to a new instance,
is the model's deduction (notes/assumptions/13.md), not a rule. -/
def Obligations.StepTakesOneInputAndKeepsTheParameters : Prop :=
  ∀ s t : State, step s = .next t →
    t.inputs = s.inputs.tail ∧ t.capacity = s.capacity ∧ t.errWidth = s.errWidth

/-! ### The pattern unit (40_pattern_ops.md) -/

/-- R100: PFROMRAW reads its integer most significant meaningful bit first, clamps `used` to 32, clears the bits above;
it answers OK and changes nothing. -/
def Obligations.PfromrawReversesAndRightAligns : Prop :=
  (∀ w : CmdWord, w.extractLsb' 76 4 = 0x1 →
    decode w = .ok (.pfromraw (w.extractLsb' 38 32) (w.extractLsb' 70 6))) ∧
  ∀ (bits : Raw) (used : Used) (s : State), ∃ pw : Pattern,
    exec (.pfromraw bits used) s = .next { s with trace := s.trace ++ [.response ⟨.ok, false, pw, 0⟩] } ∧
    pw.used.toNat = min used.toNat 32 ∧
    ∀ k, pw.raw.getLsbD k =
      (decide (k < min used.toNat 32) && bits.getLsbD (min used.toNat 32 - 1 - k))

/-- R102: PAPPEND ORs B, shifted up by A's clamped length, into A; the length saturates at 32 and what passes bit 31 is
lost, a shift by 32 giving 0; it answers OK and changes nothing. On canonical patterns it is associative, and it is not
commutative. -/
def Obligations.PappendJoinsAndTruncates : Prop :=
  (∀ w : CmdWord, w.extractLsb' 76 4 = 0x2 →
    decode w = .ok (.pappend ⟨w.extractLsb' 38 32, w.extractLsb' 70 6⟩ ⟨w.extractLsb' 0 32, w.extractLsb' 32 6⟩)) ∧
  (∀ (a b : Pattern) (s : State), ∃ pw : Pattern,
    exec (.pappend a b) s = .next { s with trace := s.trace ++ [.response ⟨.ok, false, pw, 0⟩] } ∧
    pw = append a b ∧
    pw.used.toNat = min (min a.used.toNat 32 + min b.used.toNat 32) 32 ∧
    ∀ k, k < 32 → pw.raw.getLsbD k =
      (a.raw.getLsbD k || (decide (min a.used.toNat 32 ≤ k) && b.raw.getLsbD (k - min a.used.toNat 32)))) ∧
  (∀ a b c : Pattern, a.canonical = true → b.canonical = true → c.canonical = true →
    append (append a b) c = append a (append b c)) ∧
  ∃ a b : Pattern, a.canonical = true ∧ b.canonical = true ∧ append a b ≠ append b a

/-- R104: PREVERSE keeps the clamped length, reverses the meaningful steps and clears the rest; it answers OK and
changes nothing. -/
def Obligations.PreverseReversesTheSteps : Prop :=
  (∀ w : CmdWord, w.extractLsb' 76 4 = 0x3 →
    decode w = .ok (.preverse ⟨w.extractLsb' 38 32, w.extractLsb' 70 6⟩)) ∧
  ∀ (a : Pattern) (s : State), ∃ pw : Pattern,
    exec (.preverse a) s = .next { s with trace := s.trace ++ [.response ⟨.ok, false, pw, 0⟩] } ∧
    pw.used.toNat = min a.used.toNat 32 ∧ pw.steps = a.steps.reverse ∧
    ∀ k, pw.raw.getLsbD k =
      (decide (k < min a.used.toNat 32) && a.raw.getLsbD (min a.used.toNat 32 - 1 - k))

/-- R106 (the command): PSTEP answers bit 0 of its operand and the operand rotated right by one over 32 bits, `used`
unchanged and not clamped; it changes nothing. That STEP and TRYSTEP apply the same function to `CUR` is said by
`StepPlaysOneStepAndAnswersOk`. -/
def Obligations.PstepExtractsBitZeroAndRotates : Prop :=
  (∀ w : CmdWord, w.extractLsb' 76 4 = 0x4 →
    decode w = .ok (.pstep ⟨w.extractLsb' 38 32, w.extractLsb' 70 6⟩)) ∧
  ∀ (a : Pattern) (s : State), ∃ pw : Pattern,
    exec (.pstep a) s = .next { s with trace := s.trace ++ [.response ⟨.ok, a.raw.getLsbD 0, pw, 0⟩] } ∧
    pw.used = a.used ∧ pw.raw.getLsbD 31 = a.raw.getLsbD 0 ∧
    ∀ k, k < 31 → pw.raw.getLsbD k = a.raw.getLsbD (k + 1)

/-- R109: the four pattern commands read no register and write none, cause no drive event, and their response depends
on the command alone: one response serves every state. -/
def Obligations.PatternCommandsArePure : Prop :=
  ∀ i : Instr, (∃ bits used, i = .pfromraw bits used) ∨ (∃ a b, i = .pappend a b) ∨ (∃ a, i = .preverse a) ∨
      (∃ a, i = .pstep a) →
    ∃ r : Response, r.status = .ok ∧
      ∀ s : State, exec i s = .next { s with trace := s.trace ++ [.response r] }

/-- R101: PFROMRAW gives a canonical pattern, depends only on the `u` low bits of its integer, is the same function as
PREVERSE of the pair, and its `k`-th extraction gives bit `used - 1 - k` of the integer. -/
def Obligations.PfromrawIsCanonicalAndPlaysTheDigits : Prop :=
  (∀ bits used, (fromRaw bits used).canonical = true) ∧
  (∀ (bits bits' : Raw) (used used' : Used), min used.toNat 32 = min used'.toNat 32 →
    (∀ k, k < min used.toNat 32 → bits.getLsbD k = bits'.getLsbD k) → fromRaw bits used = fromRaw bits' used') ∧
  (∀ bits used, fromRaw bits used = reverse ⟨bits, used⟩ ∧
    fromRaw bits used = reverse ⟨bits &&& mask (min used.toNat 32), used⟩) ∧
  ∀ (bits : Raw) (used : Used) (k : Nat), used.toNat ≤ 32 → k < used.toNat →
    (pstep (pstepIter k (fromRaw bits used))).1 = bits.getLsbD (used.toNat - 1 - k)

/-- R103: PAPPEND keeps canonical patterns canonical, plays A's steps and then B's (all of them when they fit in 32,
else the first 32), and never merges a step of A with a step of B. -/
def Obligations.PappendPlaysBothOperandsInTurn : Prop :=
  ∀ a b : Pattern, a.canonical = true → b.canonical = true →
    (append a b).canonical = true ∧
    (append a b).steps = (a.steps ++ b.steps).take 32 ∧
    a.raw &&& shl32 b.raw a.used.toNat = 0 ∧
    ∀ k, a.used.toNat + b.used.toNat ≤ 32 → k < a.used.toNat + b.used.toNat →
      (pstep (pstepIter k (append a b))).1 =
        if k < a.used.toNat then a.raw.getLsbD k else b.raw.getLsbD (k - a.used.toNat)

/-- R105: PREVERSE gives a canonical pattern; twice, it is the identity exactly on canonical patterns and otherwise
gives the canonical form; and it turns an append round. -/
def Obligations.PreverseIsAnInvolutionOnCanonicalPatterns : Prop :=
  (∀ a : Pattern, (reverse a).canonical = true) ∧
  (∀ a : Pattern, reverse (reverse a) = a ↔ a.canonical = true) ∧
  (∀ a : Pattern, reverse (reverse a) = a.canon) ∧
  ∀ a b : Pattern, a.canonical = true → b.canonical = true → a.used.toNat + b.used.toNat ≤ 32 →
    (reverse (append a b)).steps = (append (reverse b) (reverse a)).steps

/-- R107 (a) to (c): the `k`-th extraction gives `raw[k mod 32]`; on a canonical pattern the extractions from `used` to
31 give 0; after 32 the raw field is back. -/
def Obligations.RepeatedPstepIsCyclicOverThirtyTwo : Prop :=
  (∀ (p : Pattern) (k : Nat), (pstep (pstepIter k p)).1 = p.raw.getLsbD (k % 32)) ∧
  (∀ p : Pattern, pstepIter 32 p = p) ∧
  (∀ (p : Pattern) (k : Nat), p.canonical = true → p.used.toNat ≤ k → k < 32 →
    (pstep (pstepIter k p)).1 = false) ∧
  (∀ p : Pattern, (pstep (pstepIter 32 p)).1 = (pstep p).1)

/-! ### The Sequencer (41_sequencer_ops.md) -/

/-- R135: with room the operand goes to the tail unchanged and the answer is OK; without, nothing changes and the answer
is FULL with the operand. Nothing else is touched and no drive event occurs. -/
def Obligations.TryenqueueQueuesOrHandsBack : Prop :=
  (∀ w : CmdWord, w.extractLsb' 76 4 = 0x9 →
    decode w = .ok (.tryenqueue ⟨w.extractLsb' 38 32, w.extractLsb' 70 6⟩)) ∧
  ∀ (a : Pattern) (s : State),
    (s.q.length < s.capacity →
      exec (.tryenqueue a) s = .next { s with
        q := s.q ++ [a], trace := s.trace ++ [.response ⟨.ok, false, ⟨0, 0⟩, 0⟩] }) ∧
    (s.capacity ≤ s.q.length →
      exec (.tryenqueue a) s = .next { s with trace := s.trace ++ [.response ⟨.full, false, a, 0⟩] })

/-- R136: the state effect of TRYENQUEUE, and OK in both cases. -/
def Obligations.EnqueueQueuesOrDrops : Prop :=
  (∀ w : CmdWord, w.extractLsb' 76 4 = 0x8 →
    decode w = .ok (.enqueue ⟨w.extractLsb' 38 32, w.extractLsb' 70 6⟩)) ∧
  ∀ (a : Pattern) (s : State),
    (s.q.length < s.capacity →
      exec (.enqueue a) s = .next { s with
        q := s.q ++ [a], trace := s.trace ++ [.response ⟨.ok, false, ⟨0, 0⟩, 0⟩] }) ∧
    (s.capacity ≤ s.q.length →
      exec (.enqueue a) s = .next { s with trace := s.trace ++ [.response ⟨.ok, false, ⟨0, 0⟩, 0⟩] })

/-- R145: IDLE answers whether nothing is current and nothing is queued, and changes nothing. -/
def Obligations.IdleAnswersWhetherAnythingIsLeft : Prop :=
  (∀ w : CmdWord, w.extractLsb' 76 4 = 0xC → decode w = .ok .idle) ∧
  ∀ s : State, ∃ b : Bool, (b = true ↔ s.cur = none ∧ s.q.length = 0) ∧
    exec .idle s = .next { s with trace := s.trace ++ [.response ⟨.ok, b, ⟨0, 0⟩, 0⟩] }

/-- R142, with R140 for the transition: STEP plays one step in every state, drives `ACTIVE_LOW xor` it, and answers OK
whatever the pin answers. What the model notes of the pin's answers is left open (`EachDriveEventUsesUpOneAnswer`). -/
def Obligations.StepPlaysOneStepAndAnswersOk : Prop :=
  (∀ w : CmdWord, w.extractLsb' 76 4 = 0xA → decode w = .ok .step) ∧
  ∀ s : State, StepsAs .step s ⟨.ok, false, ⟨0, 0⟩, 0⟩

/-- R141, with R140 for the transition: TRYSTEP does the same and reports the pin's answer, an error value unchanged.
Where the environment has fixed no answer, both are possible and the registers do not depend on it. -/
def Obligations.TrystepPlaysOneStepAndReportsThePin : Prop :=
  (∀ w : CmdWord, w.extractLsb' 76 4 = 0xB → decode w = .ok .trystep) ∧
  ∀ s : State, ∃ r : Response, StepsAs .trystep s r ∧
    (∀ as, s.answers = .ok :: as → r = ⟨.ok, false, ⟨0, 0⟩, 0⟩) ∧
    (∀ e as, s.answers = .err e :: as → e < 2 ^ s.errWidth → r = ⟨.pinerr, false, ⟨0, 0⟩, e⟩) ∧
    (r = ⟨.ok, false, ⟨0, 0⟩, 0⟩ ∨ ∃ e, e < 2 ^ s.errWidth ∧ r = ⟨.pinerr, false, ⟨0, 0⟩, e⟩)

/-- R80 (d), R136, R142: the best-effort commands are the checked ones with the response replaced by OK and zeros. -/
def Obligations.BestEffortCommandsDifferOnlyInTheResponse : Prop :=
  ∀ s : State,
    (∀ a : Pattern, ∃ (u : State) (r : Response),
      exec (.tryenqueue a) s = .next { u with trace := u.trace ++ [.response r] } ∧
      exec (.enqueue a) s = .next { u with trace := u.trace ++ [.response ⟨.ok, false, ⟨0, 0⟩, 0⟩] }) ∧
    (∃ (u : State) (r : Response),
      exec .trystep s = .next { u with trace := u.trace ++ [.response r] } ∧
      exec .step s = .next { u with trace := u.trace ++ [.response ⟨.ok, false, ⟨0, 0⟩, 0⟩] })

/-- R30, R130: exactly one of the three predicates holds in every state, and it names the Sequencer's state. -/
def Obligations.ExactlyOnePredicateHolds : Prop :=
  ∀ s : State,
    (s.isIdle = true ↔ s.seqState = .idle) ∧ (s.isLoading = true ↔ s.seqState = .loading) ∧
    (s.isDraining = true ↔ s.seqState = .draining) ∧
    (s.isDraining = true ↔ s.cur ≠ none) ∧ (s.isIdle = true ↔ s.cur = none ∧ s.q = []) ∧
    (s.isLoading = true ↔ s.cur = none ∧ s.q ≠ [])

/-- R131: the transition table of the Sequencer, row by row, with the value emitted, and the full queue, on which an
enqueue changes no register. The cursor bounds are I-3. -/
def Obligations.TransitionTableHoldsRowByRow : Prop :=
  (∀ (s : State) (i : Instr), i = .step ∨ i = .trystep → ∃ t, exec i s = .next t ∧
    (s.seqState = .idle → t.seqState = .idle ∧ t.drives = s.drives ++ [s.activeLow ^^ false]) ∧
    (s.seqState = .loading → (∀ p ∈ s.q, p.used = 0) →
      t.seqState = .idle ∧ t.drives = s.drives ++ [s.activeLow ^^ false]) ∧
    (∀ z p rest, s.cur = none → s.q = z ++ p :: rest → (∀ p' ∈ z, p'.used = 0) → p.used ≠ 0 →
      t.drives = s.drives ++ [s.activeLow ^^ p.raw.getLsbD 0] ∧
      (2 ≤ p.len → t.seqState = .draining ∧ t.cur.map Slot.cursor = some 1) ∧
      (p.len = 1 → rest = [] → t.seqState = .idle) ∧
      (p.len = 1 → rest ≠ [] → t.seqState = .loading)) ∧
    (∀ c, s.cur = some c →
      t.drives = s.drives ++ [s.activeLow ^^ c.raw.getLsbD 0] ∧
      (c.cursor.toNat + 1 < c.len →
        t.seqState = .draining ∧ t.cur.map (fun c' => c'.cursor.toNat) = some (c.cursor.toNat + 1)) ∧
      (c.cursor.toNat + 1 = c.len → s.q = [] → t.seqState = .idle) ∧
      (c.cursor.toNat + 1 = c.len → s.q ≠ [] → t.seqState = .loading))) ∧
  (∀ (s : State) (a : Pattern) (i : Instr), i = .enqueue a ∨ i = .tryenqueue a → ∃ t, exec i s = .next t ∧
    t.drives = s.drives ∧
    (s.q.length < s.capacity → s.seqState = .idle → t.seqState = .loading) ∧
    (s.q.length < s.capacity → s.seqState = .loading → t.seqState = .loading) ∧
    (s.q.length < s.capacity → s.seqState = .draining → t.seqState = .draining) ∧
    (s.capacity ≤ s.q.length →
      t.seqState = s.seqState ∧ t.q = s.q ∧ t.cur = s.cur ∧ t.activeLow = s.activeLow ∧ t.pinLvl = s.pinLvl))

/-- R147, R148: from any state whose slot is valid (I-2, I-3), any sequence of step commands drives exactly the steps
still to be played, in order, without a gap, and the inactive level after them; and the block is idle exactly from the
`T + z`-th command on. -/
def Obligations.StepCommandsPlayEverythingThenIdle : Prop :=
  ∀ (s : State) (cs : List Instr), s.cur.all Slot.valid = true → (∀ i ∈ cs, i = .step ∨ i = .trystep) →
    ∃ t, runInstrs cs s = .next t ∧
      t.drives = s.drives ++ (List.range cs.length).map (fun k => s.activeLow ^^ s.playlist.getD k false) ∧
      t.activeLow = s.activeLow ∧ (t.isIdle = true ↔ s.drainTime ≤ cs.length)

/-- R147, R136: an accepted enqueue adds exactly its pattern's steps at the end of what is still to be played; a
rejected one adds nothing. -/
def Obligations.EnqueueAddsItsStepsLast : Prop :=
  ∀ (s : State) (a : Pattern) (i : Instr), i = .enqueue a ∨ i = .tryenqueue a → ∃ t, exec i s = .next t ∧
    t.playlist = if s.q.length < s.capacity then s.playlist ++ a.steps else s.playlist

/-- R146 (a), (b): what a queued pattern plays depends only on its `min(32, used)` low bits: two patterns that agree on
them, at any place in `Q` and behind any valid current slot (I-2, I-3), give the same drive events, however many step
commands follow, and no more than 32 steps are its own. -/
def Obligations.BitsAboveTheLengthAreNeverPlayed : Prop :=
  (∀ (s : State) (pre post : List Pattern) (a b : Pattern) (cs : List Instr),
    s.cur.all Slot.valid = true → (∀ i ∈ cs, i = .step ∨ i = .trystep) →
    min a.used.toNat 32 = min b.used.toNat 32 →
    (∀ k, k < min a.used.toNat 32 → a.raw.getLsbD k = b.raw.getLsbD k) →
    ∃ t u, runInstrs cs { s with q := pre ++ a :: post } = .next t ∧
      runInstrs cs { s with q := pre ++ b :: post } = .next u ∧ t.drives = u.drives) ∧
  ∀ a : Pattern, 32 ≤ a.used.toNat → a.steps.length = 32

/-- I-4 of R34, R26: what is current is the dequeued pattern rotated right `cursor` times, its `used` unchanged. A
pattern that becomes current comes from `Q`; a slot that stays current stays a copy of the same pattern. -/
def Obligations.CurrentSlotStaysARotatedCopy : Prop :=
  ∀ (s t : State) (i : Instr), exec i s = .next t → ∀ c, t.cur = some c →
    (s.cur = none ∧ ∃ p ∈ s.q, c.copyOf p) ∨
    (∃ c', s.cur = some c' ∧ ∀ p, c'.copyOf p → c.copyOf p)

/-! ### The output mux and the conditions (42_output_mux.md, 60_exceptions.md) -/

/-- R177, with R75's one response per command: NEW causes one drive event and no response; STEP and TRYSTEP cause one
drive event, then their response; every other command word only its response. -/
def Obligations.DriveEventsAndResponsesPerInput : Prop :=
  ∀ s : State, s.wasReset = true →
    (∀ al rest, s.inputs = .new al :: rest → ∃ t, step s = .next t ∧ t.trace = s.trace ++ [.drive t.pinLvl]) ∧
    (∀ w rest, s.inputs = .command w :: rest → ∃ t r, step s = .next t ∧
      t.trace = s.trace ++
        (if w.extractLsb' 76 4 = 0xA ∨ w.extractLsb' 76 4 = 0xB then [.drive t.pinLvl, .response r]
         else [.response r]))

/-- R170, R171: the four rows of the polarity table, for the current pattern's step on either step command. -/
def Obligations.PolarityTableHolds : Prop :=
  ∀ (s : State) (c : Slot) (i : Instr), i = .step ∨ i = .trystep → s.cur = some c → ∃ t, exec i s = .next t ∧
    t.drives = s.drives ++ [t.pinLvl] ∧
    (s.activeLow = false → c.raw.getLsbD 0 = false → t.pinLvl = false) ∧
    (s.activeLow = false → c.raw.getLsbD 0 = true → t.pinLvl = true) ∧
    (s.activeLow = true → c.raw.getLsbD 0 = false → t.pinLvl = true) ∧
    (s.activeLow = true → c.raw.getLsbD 0 = true → t.pinLvl = false)

/-- R29, R178: the level output changes only by a drive event and then shows the commanded level; in every other step
it holds. -/
def Obligations.PinLevelHoldsBetweenDrives : Prop :=
  ∀ s t : State, step s = .next t →
    (t.drives = s.drives ∧ t.pinLevelO = s.pinLevelO) ∨ (t.drives = s.drives ++ [t.pinLevelO])

/-- I-5 of R34, R28: the polarity is written by NEW, from the strap, and by nothing else: no command, no reserved word,
no idle step. -/
def Obligations.PolarityChangesOnlyByNew : Prop :=
  ∀ s t : State, step s = .next t →
    (∀ al rest, s.inputs = .new al :: rest → t.activeLow = al) ∧
    ((∀ al rest, s.inputs ≠ .new al :: rest) → t.activeLow = s.activeLow)

/-- R25: `Q` changes only by one pattern appended at the tail, by patterns removed from the head, or by NEW, which
empties it. -/
def Obligations.QueueChangesOnlyAtItsEnds : Prop :=
  ∀ s t : State, step s = .next t →
    (∀ al rest, s.inputs = .new al :: rest → t.q = []) ∧
    ((∀ al rest, s.inputs ≠ .new al :: rest) → (∃ p, t.q = s.q ++ [p]) ∨ t.q <:+ s.q)

/-- R191, R197: each condition has one command that reports it and one cause: FULL only from TRYENQUEUE on a full
queue, PINERR only from TRYSTEP when the pin answers with an error, ILLEGAL from no command of the table. -/
def Obligations.EachConditionHasOneReporterAndOneCause : Prop :=
  ∀ (s : State) (i : Instr), ∃ (t : State) (r : Response),
    exec i s = .next t ∧ t.responses = s.responses ++ [r] ∧
    (r.status = .full ↔ (∃ a, i = .tryenqueue a) ∧ s.capacity ≤ s.q.length) ∧
    (r.status = .pinerr ↔ i = .trystep ∧ ∃ e, s.pinAnswer = .err e) ∧
    r.status ≠ .illegal

/-- R175, R193: the pin's answers reach nothing but TRYSTEP's report. Two runs from one state that differ only in the
pin's answers agree, after any number of steps, on every register, on the drive events, on what the caller does, and on
the responses apart from the reported pin error. -/
def Obligations.PinAnswersReachOnlyTheReport : Prop :=
  ∀ (n : Nat) (s : State) (as : List PinAnswer) (d : Nat), s.wasReset = true →
    ∃ t t', runSteps n s = .next t ∧ runSteps n { s with answers := as, draws := d } = .next t' ∧
      t'.q = t.q ∧ t'.cur = t.cur ∧ t'.activeLow = t.activeLow ∧ t'.pinLvl = t.pinLvl ∧ t'.inputs = t.inputs ∧
      t'.drives = t.drives ∧
      t'.responses.map Response.withoutPin = t.responses.map Response.withoutPin

/-! ### The invariant (10_state.md R34) -/

/-- R34: every step keeps the invariant, from every state that has it. -/
def Obligations.StepKeepsTheInvariant : Prop := ∀ s t : State, s.Inv → step s = .next t → t.Inv

/-- R34, R36: the invariant holds at reset. -/
def Obligations.ResetHasTheInvariant : Prop := State.reset.Inv

/-- R220, R222: NEW establishes the invariant from any state at all, given only that the responses already seen were
well formed. -/
def Obligations.NewEstablishesTheInvariant : Prop :=
  ∀ (s : State) (al : Bool) (rest : List Input), s.inputs = .new al :: rest →
    s.responses.all (Response.wellFormed s.errWidth) = true → ∃ t, step s = .next t ∧ t.Inv
end

