-- ==== Sys2Proof/Laws/Bits.lean ====
section
/-! SUPPORT. What the primitives of R7 do to one bit, what the length operations are bounded by, and what the pattern
unit's shared step does. Proofs cite these and do not unfold the primitives. -/

namespace Sys2Proof.Machine

theorem mask_getLsbD (n k : Nat) : (mask n).getLsbD k = (decide (k < 32) && decide (k < n)) := by
  simp [mask, BitVec.getLsbD_ofNat, Nat.testBit_two_pow_sub_one]

theorem rev32_getLsbD (x : Raw) (k : Nat) (hk : k < 32) : (rev32 x).getLsbD k = x.getLsbD (31 - k) := by
  rw [rev32, BitVec.getLsbD_setWidth, BitVec.getLsbD_ofBoolListLE]
  simp [List.getD, hk]

theorem shr32_getLsbD (x : Raw) (n k : Nat) : (shr32 x n).getLsbD k = x.getLsbD (n + k) := by
  simp [shr32]

theorem shl32_getLsbD (x : Raw) (n k : Nat) :
    (shl32 x n).getLsbD k = (decide (k < 32) && !decide (k < n) && x.getLsbD (k - n)) := by
  simp [shl32]

theorem ror32_getLsbD (x : Raw) (k : Nat) (hk : k < 32) :
    (ror32 x).getLsbD k = if k = 31 then x.getLsbD 0 else x.getLsbD (k + 1) := by
  unfold ror32
  rw [BitVec.getLsbD_rotateRight]
  by_cases h : k = 31
  · subst h; simp
  · have : k < 31 := by omega
    simp [this, h, Nat.add_comm]

theorem clamp32_le (u : Nat) : clamp32 u ≤ 32 := Nat.min_le_right _ _

theorem satadd32_le (a b : Nat) : satadd32 a b ≤ 32 := Nat.min_le_right _ _

theorem clamp32_of_le {u : Nat} (h : u ≤ 32) : clamp32 u = u := Nat.min_eq_left h

theorem len_le (p : Pattern) : p.len ≤ 32 := clamp32_le _

theorem len_pos {p : Pattern} (h : p.used ≠ 0) : 1 ≤ p.len := by
  have h0 : p.used.toNat ≠ 0 := fun h' => h (BitVec.eq_of_toNat_eq (by simpa using h'))
  have : 1 ≤ min p.used.toNat 32 := by omega
  exact this

theorem len_of_used_zero {p : Pattern} (h : p.used = 0) : p.len = 0 := by
  simp [Pattern.len, clamp32, h]

@[simp] theorem ofLen_raw (r : Raw) (u : Nat) : (Pattern.ofLen r u).raw = r := rfl

theorem ofLen_used_toNat (r : Raw) {u : Nat} (h : u ≤ 32) : (Pattern.ofLen r u).used.toNat = u := by
  simp [Pattern.ofLen]; omega

theorem ofLen_len (r : Raw) {u : Nat} (h : u ≤ 32) : (Pattern.ofLen r u).len = u := by
  rw [Pattern.len, ofLen_used_toNat r h, clamp32_of_le h]

/-- The reverse-and-right-align step, bit by bit: it reads the `u` low bits backwards and clears the rest. -/
theorem reverseLow_getLsbD (x : Raw) {u : Nat} (hu : u ≤ 32) (k : Nat) :
    (reverseLow x u).getLsbD k = (decide (k < u) && x.getLsbD (u - 1 - k)) := by
  unfold reverseLow
  rw [shr32_getLsbD]
  by_cases hk : k < u
  · rw [rev32_getLsbD _ _ (by omega)]
    have : 31 - (32 - u + k) = u - 1 - k := by omega
    simp [this, hk]
  · have : 32 ≤ 32 - u + k := by omega
    simp [BitVec.getLsbD_of_ge _ _ this, hk]

@[simp] theorem pstep_fst (p : Pattern) : (pstep p).1 = p.raw.getLsbD 0 := rfl
@[simp] theorem pstep_raw (p : Pattern) : (pstep p).2.raw = ror32 p.raw := rfl
@[simp] theorem pstep_used (p : Pattern) : (pstep p).2.used = p.used := rfl

/-- Two patterns are equal exactly when their fields are (R21). -/
theorem pattern_ext {p q : Pattern} (hr : p.raw = q.raw) (hu : p.used = q.used) : p = q := by
  cases p; cases q; simp_all

theorem canonical_iff (p : Pattern) :
    p.canonical = true ↔ p.used.toNat ≤ 32 ∧ ∀ k, p.used.toNat ≤ k → p.raw.getLsbD k = false := by
  simp only [Pattern.canonical, Pattern.usedLegal, Pattern.highClear, Bool.and_eq_true, decide_eq_true_eq,
    beq_iff_eq]
  refine and_congr_right fun _ => ⟨fun h k hk => ?_, fun h => ?_⟩
  · have := congrArg (fun x => BitVec.getLsbD x (k - p.used.toNat)) h
    simpa [Nat.add_sub_cancel' hk] using this
  · apply BitVec.eq_of_getLsbD_eq
    intro k _
    simp [h]

end Sys2Proof.Machine
end

