-- ==== Sys2Proof/Laws/Decode.lean ====
section
/-! SUPPORT. Reading the fields of a packed word gives back what was packed (R70, R72, R75). -/

namespace Sys2Proof

theorem opField_commandWord (op : BitVec 4) (a b : Pattern) : opField (commandWord op a b) = op := by
  apply BitVec.eq_of_getLsbD_eq
  intro i hi
  simp only [opField, commandWord, BitVec.getLsbD_extractLsb', BitVec.getLsbD_append]
  rw [if_neg (by omega), if_neg (by omega), if_neg (by omega), if_neg (by omega),
    show 76 + i - 32 - 6 - 32 - 6 = i by omega]
  simp [hi]

theorem operandA_commandWord (op : BitVec 4) (a b : Pattern) : operandA (commandWord op a b) = a := by
  have hr : (commandWord op a b).extractLsb' 38 32 = a.raw := by
    apply BitVec.eq_of_getLsbD_eq
    intro i hi
    simp only [commandWord, BitVec.getLsbD_extractLsb', BitVec.getLsbD_append]
    rw [if_neg (by omega), if_neg (by omega), if_pos (by omega), show 38 + i - 32 - 6 = i by omega]
    simp [hi]
  have hu : (commandWord op a b).extractLsb' 70 6 = a.used := by
    apply BitVec.eq_of_getLsbD_eq
    intro i hi
    simp only [commandWord, BitVec.getLsbD_extractLsb', BitVec.getLsbD_append]
    rw [if_neg (by omega), if_neg (by omega), if_neg (by omega), if_pos (by omega), show 70 + i - 32 - 6 - 32 = i by omega]
    simp [hi]
  rw [operandA, hr, hu]

theorem operandB_commandWord (op : BitVec 4) (a b : Pattern) : operandB (commandWord op a b) = b := by
  have hr : (commandWord op a b).extractLsb' 0 32 = b.raw := by
    apply BitVec.eq_of_getLsbD_eq
    intro i hi
    simp only [commandWord, BitVec.getLsbD_extractLsb', BitVec.getLsbD_append]
    rw [if_pos (by omega)]
    simp [hi]
  have hu : (commandWord op a b).extractLsb' 32 6 = b.used := by
    apply BitVec.eq_of_getLsbD_eq
    intro i hi
    simp only [commandWord, BitVec.getLsbD_extractLsb', BitVec.getLsbD_append]
    rw [if_neg (by omega), if_pos (by omega)]
    simp [hi]
  rw [operandB, hr, hu]

end Sys2Proof
end

