-- ==== Sys2Proof/Laws/State.lean ====
section
/-! SUPPORT. One lemma per field per update of State, and what an update does to the sequences read off the trace. -/

namespace Sys2Proof.Machine

variable (s : State) (r : Response) (l al : Bool) (p : Pattern) (w : CmdWord) (rest : List Input)

@[simp] theorem respond_q : (s.respond r).q = s.q := rfl
@[simp] theorem respond_cur : (s.respond r).cur = s.cur := rfl
@[simp] theorem respond_activeLow : (s.respond r).activeLow = s.activeLow := rfl
@[simp] theorem respond_pinLvl : (s.respond r).pinLvl = s.pinLvl := rfl
@[simp] theorem respond_capacity : (s.respond r).capacity = s.capacity := rfl
@[simp] theorem respond_errWidth : (s.respond r).errWidth = s.errWidth := rfl
@[simp] theorem respond_wasReset : (s.respond r).wasReset = s.wasReset := rfl
@[simp] theorem respond_inputs : (s.respond r).inputs = s.inputs := rfl
@[simp] theorem respond_answers : (s.respond r).answers = s.answers := rfl
@[simp] theorem respond_draws : (s.respond r).draws = s.draws := rfl
@[simp] theorem respond_trace : (s.respond r).trace = s.trace ++ [.response r] := rfl
@[simp] theorem respond_drives : (s.respond r).drives = s.drives := by
  simp [State.drives, Event.level?]
@[simp] theorem respond_responses : (s.respond r).responses = s.responses ++ [r] := by
  simp [State.responses, Event.response?]

@[simp] theorem drive_q : (s.drive l).q = s.q := rfl
@[simp] theorem drive_cur : (s.drive l).cur = s.cur := rfl
@[simp] theorem drive_activeLow : (s.drive l).activeLow = s.activeLow := rfl
@[simp] theorem drive_pinLvl : (s.drive l).pinLvl = l := rfl
@[simp] theorem drive_capacity : (s.drive l).capacity = s.capacity := rfl
@[simp] theorem drive_errWidth : (s.drive l).errWidth = s.errWidth := rfl
@[simp] theorem drive_wasReset : (s.drive l).wasReset = s.wasReset := rfl
@[simp] theorem drive_inputs : (s.drive l).inputs = s.inputs := rfl
@[simp] theorem drive_answers : (s.drive l).answers = s.answers.tail := rfl
@[simp] theorem drive_draws : (s.drive l).draws = s.draws + 1 := rfl
@[simp] theorem drive_trace : (s.drive l).trace = s.trace ++ [.drive l] := rfl
@[simp] theorem drive_drives : (s.drive l).drives = s.drives ++ [l] := by
  simp [State.drives, Event.level?]
@[simp] theorem drive_responses : (s.drive l).responses = s.responses := by
  simp [State.responses, Event.response?]

@[simp] theorem pushTail_q : (s.pushTail p).q = s.q ++ [p] := rfl
@[simp] theorem pushTail_cur : (s.pushTail p).cur = s.cur := rfl
@[simp] theorem pushTail_capacity : (s.pushTail p).capacity = s.capacity := rfl

@[simp] theorem offer_cur : (s.offer p).cur = s.cur := by unfold State.offer; split <;> rfl
@[simp] theorem offer_activeLow : (s.offer p).activeLow = s.activeLow := by unfold State.offer; split <;> rfl
@[simp] theorem offer_pinLvl : (s.offer p).pinLvl = s.pinLvl := by unfold State.offer; split <;> rfl
@[simp] theorem offer_capacity : (s.offer p).capacity = s.capacity := by unfold State.offer; split <;> rfl
@[simp] theorem offer_errWidth : (s.offer p).errWidth = s.errWidth := by unfold State.offer; split <;> rfl
@[simp] theorem offer_wasReset : (s.offer p).wasReset = s.wasReset := by unfold State.offer; split <;> rfl
@[simp] theorem offer_inputs : (s.offer p).inputs = s.inputs := by unfold State.offer; split <;> rfl
@[simp] theorem offer_answers : (s.offer p).answers = s.answers := by unfold State.offer; split <;> rfl
@[simp] theorem offer_draws : (s.offer p).draws = s.draws := by unfold State.offer; split <;> rfl
@[simp] theorem offer_trace : (s.offer p).trace = s.trace := by unfold State.offer; split <;> rfl
@[simp] theorem offer_drives : (s.offer p).drives = s.drives := by simp [State.drives]
@[simp] theorem offer_responses : (s.offer p).responses = s.responses := by simp [State.responses]

/-- What the shared enqueue effect does to `Q`, the only field it can change. -/
theorem offer_q : (s.offer p).q = if s.q.length < s.capacity then s.q ++ [p] else s.q := by
  unfold State.offer State.hasRoom
  by_cases h : s.q.length < s.capacity <;> simp [h]

@[simp] theorem advance_activeLow : s.advance.activeLow = s.activeLow := rfl
@[simp] theorem advance_capacity : s.advance.capacity = s.capacity := rfl
@[simp] theorem advance_errWidth : s.advance.errWidth = s.errWidth := rfl
@[simp] theorem advance_wasReset : s.advance.wasReset = s.wasReset := rfl
@[simp] theorem advance_inputs : s.advance.inputs = s.inputs := rfl
@[simp] theorem advance_answers : s.advance.answers = s.answers.tail := rfl
@[simp] theorem advance_draws : s.advance.draws = s.draws + 1 := rfl
@[simp] theorem advance_cur : s.advance.cur = (seqStep s).2.cur := rfl
@[simp] theorem advance_q : s.advance.q = (seqStep s).2.q := rfl
@[simp] theorem advance_pinLvl : s.advance.pinLvl = (s.activeLow ^^ (seqStep s).1) := rfl
@[simp] theorem advance_trace : s.advance.trace = s.trace ++ [.drive (s.activeLow ^^ (seqStep s).1)] := rfl
@[simp] theorem advance_drives : s.advance.drives = s.drives ++ [s.activeLow ^^ (seqStep s).1] := by
  simp [State.drives, Event.level?]
@[simp] theorem advance_responses : s.advance.responses = s.responses := by
  simp [State.responses, Event.response?]

@[simp] theorem renew_q : (s.renew al).q = [] := rfl
@[simp] theorem renew_cur : (s.renew al).cur = none := rfl
@[simp] theorem renew_activeLow : (s.renew al).activeLow = al := rfl
@[simp] theorem renew_pinLvl : (s.renew al).pinLvl = al := by simp [State.renew, level]
@[simp] theorem renew_capacity : (s.renew al).capacity = s.capacity := rfl
@[simp] theorem renew_errWidth : (s.renew al).errWidth = s.errWidth := rfl
@[simp] theorem renew_wasReset : (s.renew al).wasReset = true := rfl
@[simp] theorem renew_inputs : (s.renew al).inputs = s.inputs := rfl
@[simp] theorem renew_answers : (s.renew al).answers = s.answers.tail := rfl
@[simp] theorem renew_draws : (s.renew al).draws = s.draws + 1 := rfl
@[simp] theorem renew_trace : (s.renew al).trace = s.trace ++ [.drive al] := by simp [State.renew, level]
@[simp] theorem renew_drives : (s.renew al).drives = s.drives ++ [al] := by
  simp [State.drives, Event.level?]
@[simp] theorem renew_responses : (s.renew al).responses = s.responses := by
  simp [State.responses, Event.response?]

@[simp] theorem withInputs_q : (s.withInputs rest).q = s.q := rfl
@[simp] theorem withInputs_cur : (s.withInputs rest).cur = s.cur := rfl
@[simp] theorem withInputs_activeLow : (s.withInputs rest).activeLow = s.activeLow := rfl
@[simp] theorem withInputs_pinLvl : (s.withInputs rest).pinLvl = s.pinLvl := rfl
@[simp] theorem withInputs_capacity : (s.withInputs rest).capacity = s.capacity := rfl
@[simp] theorem withInputs_errWidth : (s.withInputs rest).errWidth = s.errWidth := rfl
@[simp] theorem withInputs_wasReset : (s.withInputs rest).wasReset = s.wasReset := rfl
@[simp] theorem withInputs_answers : (s.withInputs rest).answers = s.answers := rfl
@[simp] theorem withInputs_draws : (s.withInputs rest).draws = s.draws := rfl
@[simp] theorem withInputs_trace : (s.withInputs rest).trace = s.trace := rfl
@[simp] theorem withInputs_drives : (s.withInputs rest).drives = s.drives := rfl
@[simp] theorem withInputs_responses : (s.withInputs rest).responses = s.responses := rfl
@[simp] theorem withInputs_inputs : (s.withInputs rest).inputs = rest := rfl

@[simp] theorem issue_inputs : (s.issue w).inputs = .command w :: s.inputs := rfl
@[simp] theorem issue_wasReset : (s.issue w).wasReset = true := rfl

end Sys2Proof.Machine
end

