-- ==== Sys2Proof/Laws/Ops.lean ====
section
/-! SUPPORT. One lemma per shared operation that says what it does: the loading loop, the step transition in its three
cases, the command dispatch, and one step of the machine. -/

namespace Sys2Proof.Machine

/-- Empty patterns in front are discarded (R140 item 1). -/
theorem loadLoop_discards (z q : List Pattern) (hz : ∀ p ∈ z, p.used = 0) (fuel : Nat) :
    loadLoop (z.length + fuel) (z ++ q) = loadLoop fuel q := by
  induction z with
  | nil => simp
  | cons p z ih =>
    have hp : p.used = 0 := hz p (by simp)
    have := ih fun q hq => hz q (by simp [hq])
    rw [show (p :: z).length + fuel = (z.length + fuel) + 1 by simp; omega]
    simpa [loadLoop, popHead, hp] using this

/-- A queue of empty patterns is exhausted and nothing becomes current. -/
theorem loadLoop_exhausts (q : List Pattern) (h : ∀ p ∈ q, p.used = 0) : loadLoop q.length q = (none, []) := by
  have := loadLoop_discards q [] h 0
  simpa [loadLoop] using this

/-- The first pattern with steps is loaded with cursor 0, and the rest stays queued. -/
theorem loadLoop_loads (z rest : List Pattern) (p : Pattern) (hz : ∀ p ∈ z, p.used = 0) (hp : p.used ≠ 0) :
    loadLoop (z ++ p :: rest).length (z ++ p :: rest) = (some (.fresh p), rest) := by
  rw [show (z ++ p :: rest).length = z.length + (rest.length + 1) by simp, loadLoop_discards z _ hz]
  simp only [loadLoop, popHead, if_neg hp]

/-- Every queue is a run of empty patterns, or has a first pattern with steps behind such a run. -/
theorem queue_cases (q : List Pattern) :
    (∀ p ∈ q, p.used = 0) ∨ ∃ z p rest, q = z ++ p :: rest ∧ (∀ p ∈ z, p.used = 0) ∧ p.used ≠ 0 := by
  induction q with
  | nil => left; simp
  | cons p q ih =>
    by_cases hp : p.used = 0
    · rcases ih with h | ⟨z, p', rest, rfl, hz, hp'⟩
      · left; simpa [hp] using h
      · right; exact ⟨p :: z, p', rest, rfl, by simpa [hp] using hz, hp'⟩
    · right; exact ⟨[], p, q, rfl, by simp, hp⟩

/-- On a full queue an enqueue changes no state (R131, R135). -/
theorem offer_full (s : State) (p : Pattern) (h : s.capacity ≤ s.q.length) : s.offer p = s := by
  simp [State.offer, State.hasRoom, Nat.not_lt.2 h]

theorem slot_len (c : Slot) : c.len = min c.used.toNat 32 := rfl

@[simp] theorem fresh_len (p : Pattern) : (Slot.fresh p).len = p.len := rfl

/-- R140 with a pattern current: its bit 0, the queue untouched. -/
theorem seqStep_draining (s : State) (c : Slot) (h : s.cur = some c) :
    seqStep s = (c.raw.getLsbD 0, { s with
      cur := if c.len ≤ c.cursor.toNat + 1 then none else some ⟨ror32 c.raw, c.used, c.cursor + 1⟩ }) := by
  simp [seqStep, loadPhase, h, extractPhase, Slot.advance, Slot.pattern]

/-- R140 with nothing to play: inactive, the queue emptied of its empty patterns. -/
theorem seqStep_exhausted (s : State) (h : s.cur = none) (hq : ∀ p ∈ s.q, p.used = 0) :
    seqStep s = (false, { s with q := [] }) := by
  simp [seqStep, loadPhase, h, loadLoop_exhausts s.q hq, extractPhase]

/-- R140 loading a pattern: its step 0 in the same call. -/
theorem seqStep_loads (s : State) (z rest : List Pattern) (p : Pattern) (h : s.cur = none)
    (hq : s.q = z ++ p :: rest) (hz : ∀ p ∈ z, p.used = 0) (hp : p.used ≠ 0) :
    seqStep s = (p.raw.getLsbD 0, { s with
      q := rest, cur := if p.len ≤ 1 then none else some ⟨ror32 p.raw, p.used, 1⟩ }) := by
  have hl := loadLoop_loads z rest p hz hp
  simp only [seqStep, loadPhase, h, hq, hl, extractPhase, Slot.advance, fresh_len]
  simp [Slot.fresh, Slot.pattern]

/-- What the step transition can do: it drains, it finds nothing, or it loads. -/
theorem seqStep_cases (s : State) :
    (∃ c, s.cur = some c ∧ seqStep s = (c.raw.getLsbD 0, { s with
        cur := if c.len ≤ c.cursor.toNat + 1 then none else some ⟨ror32 c.raw, c.used, c.cursor + 1⟩ })) ∨
    (s.cur = none ∧ (∀ p ∈ s.q, p.used = 0) ∧ seqStep s = (false, { s with q := [] })) ∨
    (∃ z p rest, s.cur = none ∧ s.q = z ++ p :: rest ∧ (∀ p ∈ z, p.used = 0) ∧ p.used ≠ 0 ∧
      seqStep s = (p.raw.getLsbD 0, { s with
        q := rest, cur := if p.len ≤ 1 then none else some ⟨ror32 p.raw, p.used, 1⟩ })) := by
  cases hc : s.cur with
  | none =>
    rcases queue_cases s.q with h | ⟨z, p, rest, hq, hz, hp⟩
    · exact .inr (.inl ⟨rfl, h, hc ▸ seqStep_exhausted s hc h⟩)
    · exact .inr (.inr ⟨z, p, rest, rfl, hq, hz, hp, seqStep_loads s z rest p hc hq hz hp⟩)
  | some c => exact .inl ⟨c, rfl, seqStep_draining s c hc⟩

/-- What the pin can answer: success, or an error value of `EW` bits (R174). -/
theorem pinAnswer_cases (s : State) :
    s.pinAnswer = .ok ∨ ∃ e, e < 2 ^ s.errWidth ∧ s.pinAnswer = .err e := by
  unfold State.pinAnswer
  cases s.answers.head?.getD (Config.pinAnswer s.draws) with
  | ok => exact .inl rfl
  | err e => exact .inr ⟨_, Nat.mod_lt _ (Nat.two_pow_pos _), rfl⟩

/-- An answer the environment has fixed is the one the block gets; an error value that fits `EW` bits is unchanged. -/
theorem pinAnswer_fixed (s : State) (a : PinAnswer) (as : List PinAnswer) (h : s.answers = a :: as) :
    s.pinAnswer = sampleAnswer s.errWidth a := by
  simp [State.pinAnswer, h]

/-- What a command can do: answer only, offer a pattern and answer, or advance and answer. -/
theorem exec_cases (i : Instr) (s : State) :
    (∃ r, exec i s = .next (s.respond r) ∧ r.status = .ok ∧ r.err = 0) ∨
    (∃ a r, (i = .enqueue a ∨ i = .tryenqueue a) ∧ exec i s = .next ((s.offer a).respond r)) ∨
    (∃ r, (i = .step ∨ i = .trystep) ∧ exec i s = .next (s.advance.respond r)) := by
  cases i with
  | pfromraw bits used => exact .inl ⟨_, rfl, rfl, rfl⟩
  | pappend a b => exact .inl ⟨_, rfl, rfl, rfl⟩
  | preverse a => exact .inl ⟨_, rfl, rfl, rfl⟩
  | pstep a => exact .inl ⟨_, rfl, rfl, rfl⟩
  | enqueue a => exact .inr (.inl ⟨a, _, .inl rfl, rfl⟩)
  | tryenqueue a => exact .inr (.inl ⟨a, _, .inr rfl, rfl⟩)
  | step => exact .inr (.inr ⟨_, .inl rfl, rfl⟩)
  | trystep => exact .inr (.inr ⟨_, .inr rfl, rfl⟩)
  | idle => exact .inl ⟨_, rfl, rfl, rfl⟩

/-- What a step can do. -/
theorem step_cases (s : State) :
    (s.inputs = [] ∧ step s = .next s) ∨
    (∃ al rest, s.inputs = .new al :: rest ∧ step s = .next ((s.withInputs rest).renew al)) ∨
    (∃ w rest, s.inputs = .command w :: rest ∧ s.wasReset = false ∧ step s = .refused .beforeFirstReset) ∨
    (∃ w rest i, s.inputs = .command w :: rest ∧ s.wasReset = true ∧ decode w = .ok i ∧
      step s = exec i (s.withInputs rest)) ∨
    (∃ w rest e, s.inputs = .command w :: rest ∧ s.wasReset = true ∧ decode w = .error e ∧
      step s = .next (s.withInputs rest).respondIllegal) := by
  rcases hi : s.inputs with _ | ⟨_ | w, rest⟩
  · exact .inl ⟨rfl, by simp [step, State.takeInput, hi]⟩
  · exact .inr (.inl ⟨_, rest, rfl, by simp [step, State.takeInput, hi]⟩)
  · rcases hr : s.wasReset with _ | _
    · exact .inr (.inr (.inl ⟨w, rest, rfl, rfl, by simp [step, State.takeInput, hi, hr]⟩))
    · rcases hd : decode w with e | i
      · exact .inr (.inr (.inr (.inr ⟨w, rest, e, rfl, rfl, hd, by
          simp [step, State.takeInput, hi, hr, runWord, hd]⟩)))
      · exact .inr (.inr (.inr (.inl ⟨w, rest, i, rfl, rfl, hd, by
          simp [step, State.takeInput, hi, hr, runWord, hd]⟩)))

/-- What a step that answers a next state has done: nothing, NEW, or one of the three command effects on the state
without the input taken (an ILLEGAL answer among the first). -/
theorem step_next_cases (s t : State) (h : step s = .next t) :
    (s.inputs = [] ∧ t = s) ∨
    (∃ al rest, s.inputs = .new al :: rest ∧ t = (s.withInputs rest).renew al) ∨
    (∃ w rest, s.inputs = .command w :: rest ∧
      ((∃ r, t = (s.withInputs rest).respond r) ∨ (∃ a r, t = ((s.withInputs rest).offer a).respond r) ∨
        ∃ r, t = (s.withInputs rest).advance.respond r)) := by
  rcases step_cases s with ⟨hi, e⟩ | ⟨al, rest, hi, e⟩ | ⟨w, rest, hi, hr, e⟩ | ⟨w, rest, i, hi, hr, hd, e⟩ |
    ⟨w, rest, d, hi, hr, hd, e⟩ <;> rw [e] at h
  · cases h; exact .inl ⟨hi, rfl⟩
  · cases h; exact .inr (.inl ⟨al, rest, hi, rfl⟩)
  · cases h
  · refine .inr (.inr ⟨w, rest, hi, ?_⟩)
    rcases exec_cases i (s.withInputs rest) with ⟨r, e', -⟩ | ⟨a, r, -, e'⟩ | ⟨r, -, e'⟩ <;> rw [e'] at h <;> cases h
    · exact .inl ⟨r, rfl⟩
    · exact .inr (.inl ⟨a, r, rfl⟩)
    · exact .inr (.inr ⟨r, rfl⟩)
  · cases h; exact .inr (.inr ⟨w, rest, hi, .inl ⟨_, rfl⟩⟩)

end Sys2Proof.Machine
end

