-- ==== Sys2Proof/Laws/PatternUnit.lean ====
section
/-! SUPPORT. What the pattern unit's operations do to each bit and to the length, and repeated extraction. -/

namespace Sys2Proof.Machine

/-- Two raw fields are equal when their 32 bits are. -/
theorem raw_ext {x y : Raw} (h : ∀ k, k < 32 → x.getLsbD k = y.getLsbD k) : x = y := BitVec.eq_of_getLsbD_eq h

/-- On a canonical pattern the effective length is the `used` field. -/
theorem canonical_len {a : Pattern} (h : a.canonical = true) : a.len = a.used.toNat :=
  clamp32_of_le ((canonical_iff a).1 h).1

/-- On a canonical pattern the bits at and above the length are clear. -/
theorem canonical_high {a : Pattern} (h : a.canonical = true) (k : Nat) (hk : a.len ≤ k) : a.raw.getLsbD k = false :=
  ((canonical_iff a).1 h).2 k (canonical_len h ▸ hk)

theorem steps_length (p : Pattern) : p.steps.length = p.len := by simp [Pattern.steps]

theorem steps_of_used_zero {p : Pattern} (h : p.used = 0) : p.steps = [] := by
  apply List.length_eq_zero_iff.1
  rw [steps_length, len_of_used_zero h]

/-! ### append -/

theorem append_getLsbD (a b : Pattern) (k : Nat) (hk : k < 32) :
    (append a b).raw.getLsbD k = (a.raw.getLsbD k || (decide (a.len ≤ k) && b.raw.getLsbD (k - a.len))) := by
  simp only [append, ofLen_raw, BitVec.getLsbD_or, shl32_getLsbD, hk]
  by_cases h : k < a.len
  · simp [h, Nat.not_le.2 h]
  · simp [h, Nat.le_of_not_lt h]

theorem append_used (a b : Pattern) : (append a b).used.toNat = min (a.len + b.len) 32 :=
  ofLen_used_toNat _ (satadd32_le _ _)

theorem append_len (a b : Pattern) : (append a b).len = min (a.len + b.len) 32 := ofLen_len _ (satadd32_le _ _)

/-! ### reverse, and fromRaw, which is the same function of the pair (R101 (c)) -/

theorem reverse_getLsbD (a : Pattern) (k : Nat) :
    (reverse a).raw.getLsbD k = (decide (k < a.len) && a.raw.getLsbD (a.len - 1 - k)) :=
  reverseLow_getLsbD _ (len_le a) k

theorem reverse_used (a : Pattern) : (reverse a).used.toNat = a.len := ofLen_used_toNat _ (len_le _)

theorem reverse_len (a : Pattern) : (reverse a).len = a.len := ofLen_len _ (len_le _)

theorem fromRaw_eq_reverse (bits : Raw) (used : Used) : fromRaw bits used = reverse ⟨bits, used⟩ := rfl

/-! ### repeated extraction -/

theorem pstepIter_used (k : Nat) (p : Pattern) : (pstepIter k p).used = p.used := by
  induction k generalizing p with
  | zero => rfl
  | succ k ih => rw [pstepIter, ih]; rfl

theorem pstepIter_getLsbD (k : Nat) (p : Pattern) (j : Nat) (hj : j < 32) :
    (pstepIter k p).raw.getLsbD j = p.raw.getLsbD ((j + k) % 32) := by
  induction k generalizing p with
  | zero => simp [pstepIter, Nat.mod_eq_of_lt hj]
  | succ k ih =>
    rw [pstepIter, ih, pstep_raw, ror32_getLsbD _ _ (by omega)]
    split <;> congr 1 <;> omega

/-- One more extraction rotates the raw field once more. -/
theorem pstepIter_succ_raw (k : Nat) (p : Pattern) : (pstepIter (k + 1) p).raw = ror32 (pstepIter k p).raw := by
  induction k generalizing p with
  | zero => rfl
  | succ k ih => rw [pstepIter, ih]; rfl

end Sys2Proof.Machine
end

