-- ==== Sys2Proof/Laws/PerInstr.lean ====
section
/-! SUPPORT. Facts about a command as syntax, one lemma per constructor. -/

namespace Sys2Proof.Laws.EncodeOpcode

/-- The opcode field of a command's word is the opcode of R73's map. -/
def Statement (i : Instr) : Prop := opField (encode i) = i.opcode

theorem pfromraw (bits : Raw) (used : Used) : Statement (.pfromraw bits used) := opField_commandWord _ _ _
theorem pappend (a b : Pattern) : Statement (.pappend a b) := opField_commandWord _ _ _
theorem preverse (a : Pattern) : Statement (.preverse a) := opField_commandWord _ _ _
theorem pstep (a : Pattern) : Statement (.pstep a) := opField_commandWord _ _ _
theorem enqueue (a : Pattern) : Statement (.enqueue a) := opField_commandWord _ _ _
theorem tryenqueue (a : Pattern) : Statement (.tryenqueue a) := opField_commandWord _ _ _
theorem step : Statement .step := opField_commandWord _ _ _
theorem trystep : Statement .trystep := opField_commandWord _ _ _
theorem idle : Statement .idle := opField_commandWord _ _ _

end Sys2Proof.Laws.EncodeOpcode
end

