-- ==== Sys2Proof/Laws/Playlist.lean ====
section
/-! SUPPORT. What one step transition does to the steps still to be played: it plays the first and leaves the rest. -/

namespace Sys2Proof.Machine

/-- The steps left in an optional slot. -/
def remainingOf : Option Slot → List Bool
  | none   => []
  | some c => c.remaining

theorem playlist_eq (s : State) : s.playlist = remainingOf s.cur ++ s.q.flatMap Pattern.steps := by
  unfold State.playlist remainingOf
  cases s.cur <;> rfl

theorem slotAfter_advance (c : Slot) :
    slotAfter c.raw c.used (c.cursor.toNat + 1) =
      if c.len ≤ c.cursor.toNat + 1 then none else some ⟨ror32 c.raw, c.used, c.cursor + 1⟩ := by
  have : BitVec.ofNat 6 (c.cursor.toNat + 1) = c.cursor + 1 := BitVec.eq_of_toNat_eq (by simp)
  unfold slotAfter
  rw [this]
  rfl

theorem slotAfter_fresh (p : Pattern) :
    slotAfter p.raw p.used 1 = if p.len ≤ 1 then none else some ⟨ror32 p.raw, p.used, 1⟩ := rfl

/-- Extracting a step leaves a valid slot, or none (I-2, I-3). -/
theorem slotAfter_valid (raw : Raw) (used : Used) (n : Nat) : (slotAfter raw used n).all Slot.valid = true := by
  unfold slotAfter
  split
  · rfl
  · simp [Slot.valid, slot_len]; omega

/-- Extracting a step drops the first of the steps left in the slot. -/
theorem remaining_slotAfter (raw : Raw) (used : Used) (n : Nat) (h : n < min used.toNat 32) :
    remainingOf (slotAfter raw used (n + 1)) =
      ((List.range (min used.toNat 32 - n)).map fun k => raw.getLsbD k).tail := by
  unfold slotAfter
  split
  · rw [show min used.toNat 32 - n = 1 by omega]; rfl
  · apply List.ext_getElem
    · simp [remainingOf, Slot.remaining, slot_len]; omega
    · intro k h1 h2
      have : k < 31 := by simp [remainingOf, Slot.remaining, slot_len] at h1; omega
      simp only [remainingOf, Slot.remaining, List.getElem_map, List.getElem_range, List.getElem_tail]
      exact (ror32_getLsbD raw k (by omega)).trans (by rw [if_neg (by omega)])

/-- What a pattern plays depends only on its effective length and the bits below it (R146). -/
theorem steps_congr (a b : Pattern) (hl : min a.used.toNat 32 = min b.used.toNat 32)
    (hb : ∀ k, k < min a.used.toNat 32 → a.raw.getLsbD k = b.raw.getLsbD k) : a.steps = b.steps := by
  simp only [Pattern.steps, Pattern.len, clamp32, ← hl]
  exact List.map_congr_left fun k hk => hb k (List.mem_range.1 hk)

/-- Empty patterns have nothing to play. -/
theorem flatMap_steps_of_empty (z : List Pattern) (hz : ∀ p ∈ z, p.used = 0) : z.flatMap Pattern.steps = [] :=
  List.flatMap_eq_nil_iff.2 fun p hp => steps_of_used_zero (hz p hp)

/-- Whether the last queued pattern is empty does not depend on what is loaded in front of it. -/
theorem trailingEmpty_behind (z rest : List Pattern) (p : Pattern) (hp : p.used ≠ 0) :
    trailingEmpty (z ++ p :: rest) = trailingEmpty rest := by
  unfold trailingEmpty
  rcases rest with _ | ⟨a, as⟩
  · simp; exact hp
  · simp [List.getLast?_append, List.getLast?_cons]

/-- What the step transition does to the slot's remaining steps and to the queue, in its three cases. -/
theorem seqStep_slotAfter (s : State) :
    (∃ c, s.cur = some c ∧ (seqStep s).1 = c.raw.getLsbD 0 ∧ (seqStep s).2.q = s.q ∧
      (seqStep s).2.cur = slotAfter c.raw c.used (c.cursor.toNat + 1)) ∨
    (s.cur = none ∧ (∀ p ∈ s.q, p.used = 0) ∧ (seqStep s).1 = false ∧ (seqStep s).2.q = [] ∧
      (seqStep s).2.cur = none) ∨
    (∃ z p rest, s.cur = none ∧ s.q = z ++ p :: rest ∧ (∀ p ∈ z, p.used = 0) ∧ p.used ≠ 0 ∧
      (seqStep s).1 = p.raw.getLsbD 0 ∧ (seqStep s).2.q = rest ∧ (seqStep s).2.cur = slotAfter p.raw p.used 1) := by
  rcases seqStep_cases s with ⟨c, hc, e⟩ | ⟨hc, hz, e⟩ | ⟨z, p, rest, hc, hq, hz, hp, e⟩
  · exact .inl ⟨c, hc, by rw [e], by rw [e], by rw [e, slotAfter_advance]⟩
  · exact .inr (.inl ⟨hc, hz, by rw [e], by rw [e], by rw [e]; exact hc⟩)
  · exact .inr (.inr ⟨z, p, rest, hc, hq, hz, hp, by rw [e], by rw [e], by rw [e, slotAfter_fresh]⟩)

end Sys2Proof.Machine
end

