-- ==== Sys2Proof/Tests/Slice0.lean ====
section
/-! SUPPORT. The model's own tests. Every expected value is one of spec/95_test_vectors.md (the row is named), of an
example in the rule itself, or of spec/opcode_table.json; none is the model's own answer. At the end, a witness for
every statement of Certificates/Slice0/Obligations.lean that has hypotheses. -/

namespace Sys2Proof.Tests

open Sys2Proof Sys2Proof.Machine

/-- A small state: capacity, polarity, queue, current slot; nothing seen yet. -/
def st (n : Nat) (al : Bool) (q : List Pattern) (cur : Option Slot) : State :=
  { State.reset with
    capacity := n, activeLow := al, pinLvl := al, q := q, cur := cur, answers := [.ok], trace := [.drive al] }

/-- The next state of an outcome. -/
def nextOf : Host.Outcome State Fault Refusal → Option State
  | .next s    => some s
  | .fault _   => none
  | .refused _ => none

/-- The last response word of an outcome, for `EW = 0`. -/
def lastWord (o : Host.Outcome State Fault Refusal) : Option (BitVec 41) :=
  (nextOf o).bind fun s => s.responses.getLast?.map fun r => (r.word 0).setWidth 41

/-- What one command did. -/
structure Effect where
  cur    : Option Slot
  q      : List Pattern
  drives : List Bool
  deriving DecidableEq, Repr

/-- `CUR`, `Q` and the drive events caused by one command, starting from a state whose trace holds one drive event. -/
def after (o : Host.Outcome State Fault Refusal) : Option Effect :=
  (nextOf o).map fun s => ⟨s.cur, s.q, s.drives.tail⟩

/-! ### Decoding: words written out from R72 and R73, and the rows of the tables V1 to V9 -/

/-- `0001`, used 000011, bits 110, operand B ignored (V1 row 2). -/
theorem test_decode_pfromraw : decode 0x10C00000018000000000 = .ok (.pfromraw 0b110 3) := by decide
/-- V9 row 2. -/
theorem test_decode_pappend : decode 0x2703FFFFFFC500000015 = .ok (.pappend ⟨0xFFFFFFF, 28⟩ ⟨0x15, 5⟩) := by decide
/-- V3 row 1. -/
theorem test_decode_preverse : decode 0x30C0000000C000000000 = .ok (.preverse ⟨3, 3⟩) := by decide
/-- V4. -/
theorem test_decode_pstep : decode 0x40C00000014000000000 = .ok (.pstep ⟨5, 3⟩) := by decide
/-- V5 row 7. -/
theorem test_decode_enqueue : decode 0x8A000000014000000000 = .ok (.enqueue ⟨5, 40⟩) := by decide
/-- V9 row 4. -/
theorem test_decode_tryenqueue : decode 0x9A000000014000000000 = .ok (.tryenqueue ⟨5, 40⟩) := by decide
/-- V9 row 3: operand fields are ignored. -/
theorem test_decode_step : decode 0xA2448D159E119ABCDEF0 = .ok .step := by decide
/-- P3 row 6. -/
theorem test_decode_trystep : decode 0xB0000000000000000000 = .ok .trystep := by decide
/-- V9 row 5. -/
theorem test_decode_idle : decode 0xC0000000000000000000 = .ok .idle := by decide
/-- V8: an all-zero word is reserved. -/
theorem test_decode_reserved_zero : decode 0 = .error (.reservedOpcode 0) := by decide
/-- V8: so is an all-one word. -/
theorem test_decode_reserved_ones : decode 0xFFFFFFFFFFFFFFFFFFFF = .error (.reservedOpcode 0xF) := by decide

/-- The words of V1 row 13, V2 row 1 and P7, encoded. -/
theorem test_encode_words :
    encode (.pfromraw 5 40) = 0x1A000000014000000000 ∧
    encode (.pappend ⟨5, 3⟩ ⟨1, 2⟩) = 0x20C00000014200000001 ∧
    encode (.enqueue ⟨0xFFFFFFF5, 3⟩) = 0x80FFFFFFFD4000000000 ∧
    encode .idle = 0xC0000000000000000000 := by decide

/-- Every row of spec/opcode_table.json: its match word has its mask's bits fixed and decodes to its command. -/
theorem test_opcode_table :
    decodeTableWord 80 0x10000000000000000000 = some (.pfromraw 0 0) ∧
    decodeTableWord 80 0x20000000000000000000 = some (.pappend .zero .zero) ∧
    decodeTableWord 80 0x30000000000000000000 = some (.preverse .zero) ∧
    decodeTableWord 80 0x40000000000000000000 = some (.pstep .zero) ∧
    decodeTableWord 80 0x80000000000000000000 = some (.enqueue .zero) ∧
    decodeTableWord 80 0x90000000000000000000 = some (.tryenqueue .zero) ∧
    decodeTableWord 80 0xA0000000000000000000 = some .step ∧
    decodeTableWord 80 0xB0000000000000000000 = some .trystep ∧
    decodeTableWord 80 0xC0000000000000000000 = some .idle := by decide

/-! ### Well-formedness: an ill-formed term for each check, which the check refuses -/

theorem test_used_out_of_range : Pattern.usedLegal ⟨5, 33⟩ = false := by decide
theorem test_high_bits_set : Pattern.highClear ⟨0xFF, 3⟩ = false := by decide
theorem test_not_canonical : Pattern.canonical ⟨0xFF, 3⟩ = false ∧ Pattern.canonical ⟨0, 33⟩ = false := by decide
theorem test_canonical : Pattern.canonical ⟨5, 3⟩ = true ∧ Pattern.canonical ⟨0xFFFFFFFF, 32⟩ = true := by decide
theorem test_command_not_canonical :
    Instr.canonical (.pfromraw 5 33) = false ∧ Instr.canonical (.pappend ⟨5, 3⟩ ⟨4, 2⟩) = false ∧
    Instr.canonical (.preverse ⟨8, 3⟩) = false ∧ Instr.canonical (.pstep ⟨1, 0⟩) = false ∧
    Instr.canonical (.enqueue ⟨5, 40⟩) = false ∧ Instr.canonical (.tryenqueue ⟨5, 2⟩) = false := by decide
theorem test_number_too_wide : fitsRaw 0x100000000 = false ∧ fitsUsed 64 = false := by decide
theorem test_operand_ill_formed :
    PatExpr.wellFormed (.lit 0x100000000 3) = false ∧ PatExpr.wellFormed (.pat 5 64) = false ∧
    PatExpr.wellFormed (.app (.lit 5 3) (.lit 5 64)) = false ∧ PatExpr.wellFormed (.rev (.lit 5 99)) = false := by decide
theorem test_source_ill_formed :
    SourceCmd.wellFormed (.new 2) = false ∧ SourceCmd.wellFormed (.pfromraw 5 64) = false ∧
    SourceCmd.wellFormed (.pappend (.lit 5 3) (.lit 5 64)) = false ∧
    SourceCmd.wellFormed (.preverse (.lit 5 64)) = false ∧ SourceCmd.wellFormed (.pstep (.lit 5 64)) = false ∧
    SourceCmd.wellFormed (.enqueue (.pat 0x100000000 3)) = false ∧
    SourceCmd.wellFormed (.tryenqueue (.lit 5 64)) = false := by decide

/-! ### The pattern unit -/

/-- V1 rows 2, 6, 7, 8. -/
theorem test_pfromraw :
    fromRaw 0b110 3 = ⟨3, 3⟩ ∧ fromRaw 0xDEADBEEF 32 = ⟨0xF77DB57B, 32⟩ ∧
    fromRaw 0xDEADBEEF 8 = ⟨0xF7, 8⟩ ∧ fromRaw 0xFFFFFFF6 3 = ⟨3, 3⟩ := by decide
/-- V1 rows 12, 13: an empty pattern, and `used` clamped. -/
theorem test_pfromraw_corners : fromRaw 0xFFFFFFFF 0 = ⟨0, 0⟩ ∧ fromRaw 5 40 = ⟨0xA0000000, 32⟩ := by decide
/-- V2 rows 1, 2, 7, 8. -/
theorem test_pappend :
    append ⟨5, 3⟩ ⟨1, 2⟩ = ⟨0xD, 5⟩ ∧ append ⟨0xB, 4⟩ ⟨4, 3⟩ = ⟨0x4B, 7⟩ ∧
    append ⟨0xFFFFFFF, 28⟩ ⟨0x15, 5⟩ = ⟨0x5FFFFFFF, 32⟩ ∧
    append ⟨0xAAAAA, 20⟩ ⟨0xFFFFF, 20⟩ = ⟨0xFFFAAAAA, 32⟩ := by decide
/-- V2 rows 9, 10, 11: a full first operand, and two that are not canonical. -/
theorem test_pappend_corners :
    append ⟨0xF77DB57B, 32⟩ ⟨1, 1⟩ = ⟨0xF77DB57B, 32⟩ ∧ append ⟨0xFF, 3⟩ ⟨1, 1⟩ = ⟨0xFF, 4⟩ ∧
    append ⟨5, 40⟩ ⟨1, 1⟩ = ⟨5, 32⟩ := by decide
/-- V3 rows 1, 3, 7, 9, 10. -/
theorem test_preverse :
    reverse ⟨3, 3⟩ = ⟨6, 3⟩ ∧ reverse ⟨0x1D, 5⟩ = ⟨0x17, 5⟩ ∧ reverse ⟨0xF77DB57B, 32⟩ = ⟨0xDEADBEEF, 32⟩ ∧
    reverse ⟨0xFF, 3⟩ = ⟨7, 3⟩ ∧ reverse ⟨5, 40⟩ = ⟨0xA0000000, 32⟩ := by decide
/-- V4, applications 0 and 3. -/
theorem test_pstep :
    pstep ⟨5, 3⟩ = (true, ⟨0x80000002, 3⟩) ∧ pstep ⟨0xA0000000, 3⟩ = (false, ⟨0x50000000, 3⟩) := by decide

/-- V1: the first row answers `00300000005`. -/
theorem test_pfromraw_response : lastWord (exec (.pfromraw 0b101 3) (st 3 false [] none)) = some 0x00300000005 := by
  decide
/-- R75, V4 application 0: `bit` above the rotated pattern word. -/
theorem test_pstep_response : lastWord (exec (.pstep ⟨5, 3⟩) (st 3 false [] none)) = some 0x04380000002 := by decide
/-- P4 row 4. -/
theorem test_pappend_response : lastWord (exec (.pappend ⟨1, 2⟩ ⟨6, 3⟩) (st 2 false [] none)) = some 0x00500000019 := by
  decide
/-- P4 row 3, and nothing changes but the response. -/
theorem test_preverse_response :
    lastWord (exec (.preverse ⟨3, 3⟩) (st 2 false [⟨5, 3⟩] none)) = some 0x00300000006 ∧
    after (exec (.preverse ⟨3, 3⟩) (st 2 false [⟨5, 3⟩] none)) = some ⟨none, [⟨5, 3⟩], []⟩ := by decide

/-! ### The Sequencer -/

/-- V5 rows 1, 5, 8: room; `N = 0`; full, handed back unchanged with `used` still 40. -/
theorem test_tryenqueue :
    after (exec (.tryenqueue ⟨5, 3⟩) (st 3 false [] none)) = some ⟨none, [⟨5, 3⟩], []⟩ ∧
    lastWord (exec (.tryenqueue ⟨5, 3⟩) (st 0 false [] none)) = some 0x08300000005 ∧
    lastWord (exec (.tryenqueue ⟨5, 40⟩) (st 1 false [⟨1, 1⟩] none)) = some 0x0A800000005 := by decide
/-- V5 row 4: the current pattern does not count. -/
theorem test_tryenqueue_current_does_not_count :
    after (exec (.tryenqueue ⟨5, 3⟩) (st 1 false [] (some ⟨1, 2, 1⟩))) = some ⟨some ⟨1, 2, 1⟩, [⟨5, 3⟩], []⟩ := by decide
/-- V5 rows 3, 6, 7: dropped silently; an empty pattern stored; `used = 40` stored unchanged. -/
theorem test_enqueue :
    after (exec (.enqueue ⟨5, 3⟩) (st 1 false [⟨1, 1⟩] none)) = some ⟨none, [⟨1, 1⟩], []⟩ ∧
    lastWord (exec (.enqueue ⟨5, 3⟩) (st 1 false [⟨1, 1⟩] none)) = some 0 ∧
    after (exec (.enqueue ⟨0, 0⟩) (st 2 false [⟨1, 1⟩] none)) = some ⟨none, [⟨1, 1⟩, ⟨0, 0⟩], []⟩ ∧
    after (exec (.enqueue ⟨5, 40⟩) (st 2 false [⟨1, 1⟩] none)) = some ⟨none, [⟨1, 1⟩, ⟨5, 40⟩], []⟩ := by decide
/-- V6 rows 1, 2, 6, 7, 8, 9: nothing to play, a load, empty patterns discarded, patterns of length 1. -/
theorem test_step_loading :
    after (exec .step (st 3 false [] none)) = some ⟨none, [], [false]⟩ ∧
    after (exec .step (st 3 false [⟨5, 3⟩] none)) = some ⟨some ⟨0x80000002, 3, 1⟩, [], [true]⟩ ∧
    after (exec .step (st 3 false [⟨0, 0⟩, ⟨0, 0⟩, ⟨3, 3⟩] none)) = some ⟨some ⟨0x80000001, 3, 1⟩, [], [true]⟩ ∧
    after (exec .step (st 3 false [⟨0, 0⟩, ⟨0, 0⟩] none)) = some ⟨none, [], [false]⟩ ∧
    after (exec .step (st 3 false [⟨1, 1⟩] none)) = some ⟨none, [], [true]⟩ ∧
    after (exec .step (st 3 false [⟨0, 1⟩, ⟨5, 3⟩] none)) = some ⟨none, [⟨5, 3⟩], [false]⟩ := by decide
/-- V6 rows 3, 5, 10, 11, 12: draining, a pattern's last step, the queue untouched, `used = 40` played as 32 steps. -/
theorem test_step_draining :
    after (exec .step (st 3 false [] (some ⟨0x80000002, 3, 1⟩))) = some ⟨some ⟨0x40000001, 3, 2⟩, [], [false]⟩ ∧
    after (exec .step (st 3 false [⟨3, 3⟩] (some ⟨0x40000001, 3, 2⟩))) = some ⟨none, [⟨3, 3⟩], [true]⟩ ∧
    after (exec .step (st 3 false [⟨0, 0⟩] (some ⟨0x80000002, 3, 1⟩)))
      = some ⟨some ⟨0x40000001, 3, 2⟩, [⟨0, 0⟩], [false]⟩ ∧
    after (exec .step (st 1 false [⟨5, 40⟩] none)) = some ⟨some ⟨0x80000002, 40, 1⟩, [], [true]⟩ ∧
    after (exec .step (st 1 false [] (some ⟨0xA, 40, 31⟩))) = some ⟨none, [], [false]⟩ := by decide
/-- P3 row 7: a failed drive still advances the cursor and sets `PINLVL`, and is reported. -/
theorem test_trystep_pin_error :
    let s := { st 2 true [] (some ⟨0x80000001, 3, 1⟩) with answers := [.err 0] }
    lastWord (exec .trystep s) = some 0x10000000000 ∧
    after (exec .trystep s) = some ⟨some ⟨0xC0000000, 3, 2⟩, [], [false]⟩ := by decide
/-- R176: the error value passes through unchanged (here `EW = 8`), and only TRYSTEP shows it. -/
theorem test_pin_error_value :
    let s := { st 2 false [] none with errWidth := 8, answers := [.err 0xA5] }
    ((nextOf (exec .trystep s)).bind fun t => t.responses.getLast?) = some ⟨.pinerr, false, .zero, 0xA5⟩ ∧
    ((nextOf (exec .step s)).bind fun t => t.responses.getLast?) = some .done := by decide
/-- V8: idle and not idle. -/
theorem test_idle :
    lastWord (exec .idle (st 3 false [] none)) = some 0x04000000000 ∧
    lastWord (exec .idle (st 3 false [⟨0, 0⟩] none)) = some 0 := by decide

/-! ### One step of the machine -/

/-- R220's example, `NEW 1`, from a busy state, with the pin failing. -/
theorem test_new :
    let s := { st 2 false [⟨5, 3⟩] (some ⟨1, 2, 1⟩) with inputs := [.new true], answers := [.err 3] }
    after (step s) = some ⟨none, [], [true]⟩ ∧
    (nextOf (step s)).map (fun t => (t.activeLow, t.pinLvl, t.responses)) = some (true, true, []) := by decide
/-- V8: a reserved opcode is answered `18000000000` and nothing is driven. -/
theorem test_reserved_opcode :
    lastWord (step (State.reset.withFetchWord 80 0x50000000000000000000)) = some 0x18000000000 ∧
    after (step (State.reset.withFetchWord 80 0x50000000000000000000)) = some ⟨none, [], []⟩ := by decide
/-- P1 row 1, as the first command after reset. -/
theorem test_first_command_after_reset :
    after (step (State.reset.withFetchWord 80 0x80C00000014000000000)) = some ⟨none, [⟨5, 3⟩], []⟩ := by decide

/-- Every command of the table runs as the first command after reset. -/
theorem test_every_command_runs_after_reset :
    [0x10000000000000000000, 0x20000000000000000000, 0x30000000000000000000, 0x40000000000000000000,
     0x80000000000000000000, 0x90000000000000000000, 0xA0000000000000000000, 0xB0000000000000000000,
     0xC0000000000000000000].all (fun w => (nextOf (step (State.reset.withFetchWord 80 w))).isSome) = true := by decide

/-! ### The source language (R79, R80) -/

/-- The lines of R79 and the examples of R80. -/
theorem test_parse_lines :
    Asm.parseLine "PFROMRAW   0b101, 3          ; from_raw(0b101, 3)".toList = some (some (.pfromraw 5 3)) ∧
    Asm.parseLine "PAPPEND    0x5:3, 0x1:2      ; append(A, B)".toList = some (some (.pappend (.lit 5 3) (.lit 1 2))) ∧
    Asm.parseLine "TRYENQUEUE 0x5:3".toList = some (some (.tryenqueue (.lit 5 3))) ∧
    Asm.parseLine "STEP                         ; step()".toList = some (some .step) ∧
    Asm.parseLine "NEW 1".toList = some (some (.new 1)) ∧
    Asm.parseLine "; only a comment".toList = some none := by decide
/-- Not lines of the language: a small mnemonic, a decimal `raw`, a missing operand, an operand too many. -/
theorem test_parse_refuses :
    Asm.parseLine "step".toList = none ∧ Asm.parseLine "ENQUEUE 5:3".toList = none ∧
    Asm.parseLine "PSTEP".toList = none ∧ Asm.parseLine "IDLE 0x5:3".toList = none := by decide
/-- R80 (b): `ENQUEUE pat(0b110, 3)` assembles as `ENQUEUE 0x3:3`; P4 row 4 by `app` and `rev`. -/
theorem test_assemble_pseudo :
    Asm.assembleLine "ENQUEUE pat(0b110, 3)".toList = some (.command (encode (.enqueue ⟨3, 3⟩))) ∧
    Asm.assembleLine "ENQUEUE app(0x1:2, rev(0x3:3))".toList = some (.command 0x81400000064000000000) ∧
    Asm.assembleLine "NEW 2".toList = none := by decide

/-! ### Witnesses: states and operands that meet the hypotheses of the statements, one for each clause -/

/-- A reset block about to take one input. -/
def about (i : Input) : State := { State.reset with inputs := [i] }

theorem witness_EncodeOfDecodeClearsIgnoredFields : decode 0xA2448D159E119ABCDEF0 = .ok .step := by decide
/-- Every opcode value is the opcode of some word. -/
theorem witness_OpcodeMapSelectsTheCommand (op : BitVec 4) :
    (BitVec.extractLsb' 76 4 (op ++ (0 : BitVec 76)) : BitVec 4) = op := by revert op; decide
/-- One operand, and the two of PAPPEND, the numbers at the top of their fields. -/
theorem witness_PseudoOperandsAreEvaluatedByTheAssembler :
    (PatExpr.rev (.lit 3 63)).wellFormed = true ∧
    (PatExpr.app (.pat 0xFFFFFFFF 3) (.lit 1 2)).wellFormed = true := by decide
theorem witness_StepPerformsTheDecodedCommand :
    (about (.command 0xC0000000000000000000)).inputs = [.command 0xC0000000000000000000] ∧
    (about (.command 0xC0000000000000000000)).wasReset = true ∧ decode 0xC0000000000000000000 = .ok .idle ∧
    decodeTableWord 80 0xC0000000000000000000 = some .idle := by decide
theorem witness_ReservedOpcodeIsAnsweredIllegalAndChangesNothing :
    (about (.command 0)).inputs = [.command 0] ∧ (about (.command 0)).wasReset = true ∧
    (0 : CmdWord).extractLsb' 76 4 ∈ [0x0, 0x5, 0x6, 0x7, 0xD, 0xE, 0xF] := by decide
theorem witness_NothingChangesBetweenCommands : State.reset.inputs = [] := by decide
theorem witness_CommandBeforeTheFirstResetIsRefused :
    let s := { about (.command 0xC0000000000000000000) with wasReset := false }
    s.inputs = [.command 0xC0000000000000000000] ∧ s.wasReset = false := by decide
/-- Also for the statement that NEW establishes the invariant. -/
theorem witness_NewWritesEveryRegisterAndDrivesInactive :
    (about (.new true)).inputs = [.new true] ∧
    (about (.new true)).responses.all (Response.wellFormed (about (.new true)).errWidth) = true := by decide
theorem witness_NoStepStopsAResetBlock : State.reset.wasReset = true := by decide
/-- For the statements about `step s = .next t` and for the invariant. -/
theorem witness_StepKeepsTheInvariant :
    (about (.command 0x80C00000014000000000)).Inv ∧
    (nextOf (step (about (.command 0x80C00000014000000000)))).isSome = true := by decide
/-- Of the clauses of R25, R28 and R29: a NEW from a busy state, and no NEW: a push at the tail, a pop from the head. -/
theorem witness_QueueChangesOnlyAtItsEnds :
    (nextOf (step { about (.new true) with q := [⟨5, 3⟩] })).map (fun t => (t.q, t.activeLow)) = some ([], true) ∧
    (nextOf (step (about (.command 0x80C00000014000000000)))).map State.q = some [⟨5, 3⟩] ∧
    (nextOf (step { about (.command 0xA0000000000000000000) with q := [⟨0, 0⟩, ⟨1, 1⟩, ⟨5, 3⟩] })).map State.q
      = some [⟨5, 3⟩] := by decide
theorem witness_PatternCommandsArePure :
    ∃ bits used, Instr.pfromraw 5 3 = .pfromraw bits used := ⟨5, 3, rfl⟩
/-- The clauses of R101: two integers that agree on three bits; an extraction below `used = 32`. -/
theorem witness_PfromrawIsCanonicalAndPlaysTheDigits :
    min (3 : Used).toNat 32 = 3 ∧ (∀ k, k < 3 → (0xFFFFFFF6 : Raw).getLsbD k = (0b110 : Raw).getLsbD k) ∧
    (32 : Used).toNat ≤ 32 ∧ 31 < (32 : Used).toNat := by decide
/-- Canonical patterns that just fit in 32 steps together. -/
theorem witness_PappendPlaysBothOperandsInTurn :
    Pattern.canonical ⟨0xFF, 16⟩ = true ∧ Pattern.canonical ⟨0x8000, 16⟩ = true ∧
    (16 : Used).toNat + (16 : Used).toNat ≤ 32 ∧ 31 < (16 : Used).toNat + (16 : Used).toNat := by decide
/-- A canonical pattern and an extraction at its end, below 32. -/
theorem witness_RepeatedPstepIsCyclicOverThirtyTwo :
    Pattern.canonical ⟨5, 3⟩ = true ∧ (3 : Used).toNat ≤ 3 ∧ 3 < 32 := by decide
/-- Room for one more, and exactly full. -/
theorem witness_TryenqueueQueuesOrHandsBack :
    (st 1 false [] none).q.length < (st 1 false [] none).capacity ∧
    (st 1 false [⟨5, 3⟩] none).capacity ≤ (st 1 false [⟨5, 3⟩] none).q.length := by decide
/-- The three cases of the step transition: nothing to play, a load behind an empty pattern, a current pattern. -/
theorem witness_StepPlaysOneStepAndAnswersOk :
    ((st 3 false [⟨0, 0⟩] none).cur = none ∧ ∀ p ∈ (st 3 false [⟨0, 0⟩] none).q, p.used = 0) ∧
    ((st 3 false [⟨0, 0⟩, ⟨5, 3⟩] none).q = [⟨0, 0⟩] ++ ⟨5, 3⟩ :: [] ∧ (3 : Used) ≠ 0) ∧
    (st 3 false [] (some ⟨1, 2, 1⟩)).cur = some ⟨1, 2, 1⟩ := by decide
/-- The pin answers `ok`, and an error value at the top of its range. -/
theorem witness_TrystepPlaysOneStepAndReportsThePin :
    (st 3 false [] none).answers = .ok :: [] ∧
    { st 3 false [] none with errWidth := 4, answers := [.err 15] }.answers = .err 15 :: [] ∧ 15 < 2 ^ 4 := by decide
/-- A state for each row of the transition table: the Sequencer's three states, patterns of length 2 and 1, with and
without a successor, a cursor before and at the last step, a full queue. -/
theorem witness_TransitionTableHoldsRowByRow :
    (st 3 false [] none).seqState = .idle ∧ (st 3 false [⟨0, 0⟩] none).seqState = .loading ∧
    (st 3 false [] (some ⟨1, 2, 1⟩)).seqState = .draining ∧
    Pattern.len ⟨1, 2⟩ = 2 ∧ Pattern.len ⟨1, 1⟩ = 1 ∧
    (⟨1, 3, 1⟩ : Slot).cursor.toNat + 1 < (⟨1, 3, 1⟩ : Slot).len ∧
    (⟨1, 40, 31⟩ : Slot).cursor.toNat + 1 = (⟨1, 40, 31⟩ : Slot).len ∧
    (st 0 false [] none).capacity ≤ (st 0 false [] none).q.length := by decide
/-- A slot at its last step, with a pattern and a trailing empty one queued: `T + z = 1 + 3 + 1`. -/
theorem witness_StepCommandsPlayEverythingThenIdle :
    let s := st 3 false [⟨5, 3⟩, ⟨0, 0⟩] (some ⟨1, 2, 1⟩)
    s.cur.all Slot.valid = true ∧ s.drainTime = 5 ∧ s.playlist = [true, true, false, true] := by decide
/-- The operands of P7 and P1 agree on three bits, behind a slot at its last step; `used = 40` has 32 steps. -/
theorem witness_BitsAboveTheLengthAreNeverPlayed :
    (st 3 false [⟨0, 0⟩, ⟨5, 3⟩, ⟨1, 1⟩] (some ⟨1, 2, 1⟩)).cur.all Slot.valid = true ∧
    (∀ k, k < 3 → (0xFFFFFFF5 : Raw).getLsbD k = (5 : Raw).getLsbD k) ∧ 32 ≤ (40 : Used).toNat := by decide
/-- A pattern becomes current, and a slot stays current. -/
theorem witness_CurrentSlotStaysARotatedCopy :
    ((nextOf (exec .step (st 3 false [⟨5, 3⟩] none))).bind State.cur).isSome = true ∧
    ((nextOf (exec .step (st 3 false [] (some ⟨1, 3, 1⟩)))).bind State.cur).isSome = true := by decide
/-- A reset block with a NEW and with a command waiting, among them both step commands and a reserved word. -/
theorem witness_DriveEventsAndResponsesPerInput :
    (about (.new true)).wasReset = true ∧ (about (.command 0)).wasReset = true ∧
    (0xA0000000000000000000 : CmdWord).extractLsb' 76 4 = 0xA ∧
    (0xB0000000000000000000 : CmdWord).extractLsb' 76 4 = 0xB := by decide
/-- The four rows of the polarity table. -/
theorem witness_PolarityTableHolds :
    (st 3 false [] none).activeLow = false ∧ (st 3 true [] none).activeLow = true ∧
    (⟨0, 2, 1⟩ : Slot).raw.getLsbD 0 = false ∧ (⟨1, 2, 1⟩ : Slot).raw.getLsbD 0 = true := by decide
/-- Each condition occurs: FULL on a full queue, PINERR on a failing pin. -/
theorem witness_EachConditionHasOneReporterAndOneCause :
    (st 0 false [] none).capacity ≤ (st 0 false [] none).q.length ∧
    { st 3 false [] none with answers := [.err 0] }.pinAnswer = .err 0 := by decide

end Sys2Proof.Tests
end

section
/-! R30 and R130: each predicate, and each state of the Sequencer, as a condition on `CUR` and `Q`. -/

namespace Sys2Proof.Machine

variable (s : State)

theorem isIdle_iff : s.isIdle = true ↔ s.cur = none ∧ s.q = [] := by
  simp [State.isIdle]

theorem isLoading_iff : s.isLoading = true ↔ s.cur = none ∧ s.q ≠ [] := by
  simp [State.isLoading, List.length_pos_iff]

theorem isDraining_iff : s.isDraining = true ↔ s.cur ≠ none := by
  simp [State.isDraining, Option.isSome_iff_ne_none]

theorem seqState_of_cur_some {c : Slot} (hc : s.cur = some c) : s.seqState = .draining := by
  simp [State.seqState, hc]

theorem seqState_of_queue_nil (hc : s.cur = none) (hq : s.q = []) : s.seqState = .idle := by
  simp [State.seqState, hc, hq]

theorem seqState_of_queue_cons {p : Pattern} {ps : List Pattern} (hc : s.cur = none) (hq : s.q = p :: ps) :
    s.seqState = .loading := by
  simp [State.seqState, hc, hq]

/-- The table of R130, read from the state back to `CUR` and `Q`. -/
theorem seqState_eq_iff :
    (s.seqState = .idle ↔ s.cur = none ∧ s.q = []) ∧ (s.seqState = .loading ↔ s.cur = none ∧ s.q ≠ []) ∧
    (s.seqState = .draining ↔ s.cur ≠ none) := by
  cases hc : s.cur with
  | some c => simp [seqState_of_cur_some s hc]
  | none =>
    cases hq : s.q with
    | nil => simp [seqState_of_queue_nil s hc hq]
    | cons p ps => simp [seqState_of_queue_cons s hc hq]

end Sys2Proof.Machine

open Sys2Proof.Machine in
/-- Settles O32: predicate and state of the Sequencer are the same condition on `CUR` and `Q`. -/
theorem exactlyOnePredicateHolds : Obligations.ExactlyOnePredicateHolds := by
  intro s
  obtain ⟨hIdle, hLoading, hDraining⟩ := seqState_eq_iff s
  exact ⟨(isIdle_iff s).trans hIdle.symm, (isLoading_iff s).trans hLoading.symm,
    (isDraining_iff s).trans hDraining.symm, isDraining_iff s, isIdle_iff s, isLoading_iff s⟩

end

section
/-! 40_pattern_ops.md R100 to R109: PFROMRAW, PAPPEND and PREVERSE through the steps of their results. A canonical
pattern is determined by its steps, so the laws of the three operations follow from laws about lists of steps. -/

namespace Sys2Proof.Machine

/-! ### The opcodes that select the three commands (R73) -/

theorem decode_pfromraw {w : CmdWord} (h : opField w = 0x1) :
    decode w = .ok (.pfromraw (operandA w).raw (operandA w).used) := by simp [decode, h]

theorem decode_pappend {w : CmdWord} (h : opField w = 0x2) : decode w = .ok (.pappend (operandA w) (operandB w)) := by
  simp [decode, h]

theorem decode_preverse {w : CmdWord} (h : opField w = 0x3) : decode w = .ok (.preverse (operandA w)) := by
  simp [decode, h]

/-! ### Steps and canonical patterns (R22 to R24) -/

theorem getElem_steps (p : Pattern) (k : Nat) (hk : k < p.steps.length) : p.steps[k] = p.raw.getLsbD k := by
  simp [Pattern.steps]

/-- A canonical pattern is determined by its steps. -/
theorem eq_of_steps_eq {p q : Pattern} (hp : p.canonical = true) (hq : q.canonical = true)
    (h : p.steps = q.steps) : p = q := by
  have hlen : p.len = q.len := by rw [← steps_length, h, steps_length]
  refine pattern_ext (raw_ext fun k _ => ?_) (BitVec.eq_of_toNat_eq ?_)
  · rcases Nat.lt_or_ge k p.len with hk | hk
    · have hkp : k < p.steps.length := by rwa [steps_length]
      calc p.raw.getLsbD k = p.steps[k] := (getElem_steps p k hkp).symm
        _ = q.steps[k]'(h ▸ hkp) := by simp only [h]
        _ = q.raw.getLsbD k := getElem_steps q k _
    · rw [canonical_high hp k hk, canonical_high hq k (hlen ▸ hk)]
  · rw [← canonical_len hp, ← canonical_len hq, hlen]

theorem canon_canonical (p : Pattern) : p.canon.canonical = true := by
  have hused : p.canon.used.toNat = p.len := ofLen_used_toNat _ (len_le p)
  refine (canonical_iff _).2 ⟨hused ▸ len_le p, fun k hk => ?_⟩
  have : ¬ k < p.len := by omega
  simp [Pattern.canon, mask_getLsbD, this]

theorem canon_steps (p : Pattern) : p.canon.steps = p.steps := by
  have hlen : p.canon.len = p.len := ofLen_len _ (len_le p)
  refine steps_congr _ _ hlen fun k hk => ?_
  have hk : k < p.len := hlen ▸ hk
  have hk32 : k < 32 := hk.trans_le (len_le p)
  simp [Pattern.canon, mask_getLsbD, hk, hk32]

theorem canon_eq_self_iff (p : Pattern) : p.canon = p ↔ p.canonical = true :=
  ⟨fun h => h ▸ canon_canonical p, fun h => eq_of_steps_eq (canon_canonical p) h (canon_steps p)⟩

/-- The `k`-th extraction plays bit `k`, within the 32 bits of the raw field (R107 (a)). -/
theorem pstep_pstepIter_fst (p : Pattern) {k : Nat} (hk : k < 32) : (pstep (pstepIter k p)).1 = p.raw.getLsbD k := by
  rw [pstep_fst, pstepIter_getLsbD k p 0 (by omega), Nat.zero_add, Nat.mod_eq_of_lt hk]

/-! ### PREVERSE, and PFROMRAW, which is the same function of the pair -/

theorem reverse_canonical (a : Pattern) : (reverse a).canonical = true := by
  refine (canonical_iff _).2 ⟨reverse_used a ▸ len_le a, fun k hk => ?_⟩
  have : ¬ k < a.len := by rw [reverse_used] at hk; omega
  simp [reverse_getLsbD, this]

theorem reverse_steps (a : Pattern) : (reverse a).steps = a.steps.reverse := by
  refine List.ext_getElem (by simp [steps_length, reverse_len]) fun k hk _ => ?_
  have hk : k < a.len := by rwa [steps_length, reverse_len] at hk
  rw [getElem_steps, List.getElem_reverse, getElem_steps, reverse_getLsbD, steps_length]
  simp [hk]

theorem reverse_reverse (a : Pattern) : reverse (reverse a) = a.canon :=
  eq_of_steps_eq (reverse_canonical _) (canon_canonical a)
    (by rw [reverse_steps, reverse_steps, List.reverse_reverse, canon_steps])

/-- PREVERSE reads its operand through its steps only. -/
theorem reverse_congr {a b : Pattern} (h : a.steps = b.steps) : reverse a = reverse b :=
  eq_of_steps_eq (reverse_canonical a) (reverse_canonical b) (by rw [reverse_steps, reverse_steps, h])

/-- Bits at and above the effective length are no steps. -/
theorem steps_and_mask (bits : Raw) (used : Used) :
    (⟨bits, used⟩ : Pattern).steps = (⟨bits &&& mask (min used.toNat 32), used⟩ : Pattern).steps := by
  refine steps_congr _ _ rfl fun k hk => ?_
  have hk' : k < used.toNat ∧ k < 32 := lt_min_iff.1 hk
  simp [mask_getLsbD, hk']

/-! ### PAPPEND -/

theorem append_canonical {a b : Pattern} (ha : a.canonical = true) (hb : b.canonical = true) :
    (append a b).canonical = true := by
  refine (canonical_iff _).2 ⟨by rw [append_used]; omega, fun k hk => ?_⟩
  rw [append_used] at hk
  rcases Nat.lt_or_ge k 32 with hk32 | hk32
  · rw [append_getLsbD a b k hk32, canonical_high ha k (by omega), canonical_high hb (k - a.len) (by omega)]
    simp
  · exact BitVec.getLsbD_of_ge _ _ hk32

/-- A bit of the result is a step of A or, above A's length, a step of B. -/
theorem append_getLsbD_of_canonical {a : Pattern} (ha : a.canonical = true) (b : Pattern) {k : Nat} (hk : k < 32) :
    (append a b).raw.getLsbD k = if k < a.len then a.raw.getLsbD k else b.raw.getLsbD (k - a.len) := by
  rw [append_getLsbD a b k hk]
  split
  next h => simp [Nat.not_le.2 h]
  next h => simp [Nat.not_lt.1 h, canonical_high ha k (Nat.not_lt.1 h)]

theorem append_steps {a : Pattern} (ha : a.canonical = true) (b : Pattern) :
    (append a b).steps = (a.steps ++ b.steps).take 32 := by
  refine List.ext_getElem (by simp [steps_length, append_len]; omega) fun k hk _ => ?_
  have hk32 : k < 32 := by rw [steps_length] at hk; exact hk.trans_le (len_le _)
  rw [getElem_steps, append_getLsbD_of_canonical ha b hk32, List.getElem_take, List.getElem_append]
  simp only [getElem_steps, steps_length, dite_eq_ite]

/-- Truncating the first part of a concatenation that is truncated anyway makes no difference. -/
theorem take_take_append (n : Nat) (xs ys : List Bool) : (xs.take n ++ ys).take n = (xs ++ ys).take n := by
  rw [List.take_append, List.take_append, List.take_take, Nat.min_self, List.length_take]
  congr 2; omega

/-- Truncating the second part of a concatenation that is truncated anyway makes no difference. -/
theorem take_append_take (n : Nat) (xs ys : List Bool) : (xs ++ ys.take n).take n = (xs ++ ys).take n := by
  rw [List.take_append, List.take_append, List.take_take, Nat.min_eq_left (Nat.sub_le _ _)]

/-- Both sides are canonical and play the first 32 of the three operands' steps. -/
theorem append_assoc_of_canonical {a b c : Pattern} (ha : a.canonical = true) (hb : b.canonical = true)
    (hc : c.canonical = true) : append (append a b) c = append a (append b c) := by
  have hab := append_canonical ha hb
  refine eq_of_steps_eq (append_canonical hab hc) (append_canonical ha (append_canonical hb hc)) ?_
  calc (append (append a b) c).steps
      = ((a.steps ++ b.steps).take 32 ++ c.steps).take 32 := by rw [append_steps hab, append_steps ha]
    _ = (a.steps ++ (b.steps ++ c.steps)).take 32 := by rw [take_take_append, List.append_assoc]
    _ = (a.steps ++ (b.steps ++ c.steps).take 32).take 32 := (take_append_take ..).symm
    _ = (append a (append b c)).steps := by rw [append_steps ha, append_steps hb]

/-- A and the shifted B occupy disjoint bits (R103 (c)). -/
theorem and_shl32_eq_zero {a : Pattern} (ha : a.canonical = true) (b : Raw) : a.raw &&& shl32 b a.used.toNat = 0 := by
  refine raw_ext fun k _ => ?_
  rw [BitVec.getLsbD_and, shl32_getLsbD, ← canonical_len ha]
  rcases Nat.lt_or_ge k a.len with h | h
  · simp [h]
  · simp [canonical_high ha k h]

end Sys2Proof.Machine

open Sys2Proof Sys2Proof.Machine

/-- Settles O17: PFROMRAW is PREVERSE of the pair, whose result is known bit by bit. -/
theorem pfromrawReversesAndRightAligns : Obligations.PfromrawReversesAndRightAligns :=
  ⟨fun _ h => decode_pfromraw h, fun bits used _ =>
    ⟨fromRaw bits used, rfl, reverse_used ⟨bits, used⟩, reverse_getLsbD ⟨bits, used⟩⟩⟩

/-- Settles O18: bit by bit, then associativity through the steps; one step 1 and one step 0 do not commute. -/
theorem pappendJoinsAndTruncates : Obligations.PappendJoinsAndTruncates :=
  ⟨fun _ h => decode_pappend h,
    fun a b _ => ⟨append a b, rfl, rfl, append_used a b, append_getLsbD a b⟩,
    fun _ _ _ => append_assoc_of_canonical,
    ⟨1, 1⟩, ⟨0, 1⟩, by decide⟩

/-- Settles O19: the reversed list of steps, and the bits. -/
theorem preverseReversesTheSteps : Obligations.PreverseReversesTheSteps :=
  ⟨fun _ h => decode_preverse h, fun a _ =>
    ⟨reverse a, rfl, reverse_used a, reverse_steps a, reverse_getLsbD a⟩⟩

/-- Settles O22: the laws of PREVERSE, read for the pair `(bits, used)`. -/
theorem pfromrawIsCanonicalAndPlaysTheDigits : Obligations.PfromrawIsCanonicalAndPlaysTheDigits := by
  refine ⟨fun bits used => reverse_canonical ⟨bits, used⟩, fun bits bits' used used' hu hb => ?_,
    fun bits used => ⟨fromRaw_eq_reverse bits used, ?_⟩, fun bits used k hu hk => ?_⟩
  · rw [fromRaw_eq_reverse, fromRaw_eq_reverse]
    exact reverse_congr (steps_congr ⟨bits, used⟩ ⟨bits', used'⟩ hu hb)
  · rw [fromRaw_eq_reverse]
    exact reverse_congr (steps_and_mask bits used)
  · have hlen : (⟨bits, used⟩ : Pattern).len = used.toNat := clamp32_of_le hu
    rw [pstep_pstepIter_fst _ (by omega), fromRaw_eq_reverse, reverse_getLsbD, hlen]
    simp [hk]

/-- Settles O23: on canonical operands the steps are concatenated, and bit `k` of the result is extraction `k`. -/
theorem pappendPlaysBothOperandsInTurn : Obligations.PappendPlaysBothOperandsInTurn := by
  intro a b ha hb
  refine ⟨append_canonical ha hb, append_steps ha b, and_shl32_eq_zero ha b.raw, fun k hfit hk => ?_⟩
  rw [pstep_pstepIter_fst _ (by omega), append_getLsbD_of_canonical ha b (by omega), canonical_len ha]

/-- Settles O24: the double reverse is the canonical form; an append that fits loses no step, so reversing it is
reversing a concatenation of lists. -/
theorem preverseIsAnInvolutionOnCanonicalPatterns : Obligations.PreverseIsAnInvolutionOnCanonicalPatterns := by
  refine ⟨reverse_canonical, fun a => ?_, reverse_reverse, fun a b ha hb hfit => ?_⟩
  · rw [reverse_reverse, canon_eq_self_iff]
  · have hlen : a.steps.length + b.steps.length ≤ 32 := by
      rwa [steps_length, steps_length, canonical_len ha, canonical_len hb]
    calc (reverse (append a b)).steps
        = (a.steps ++ b.steps).reverse := by
          rw [reverse_steps, append_steps ha, List.take_of_length_le (by simpa using hlen)]
      _ = b.steps.reverse ++ a.steps.reverse := List.reverse_append
      _ = (append (reverse b) (reverse a)).steps := by
          rw [append_steps (reverse_canonical b), reverse_steps, reverse_steps,
            List.take_of_length_le (by simpa [Nat.add_comm] using hlen)]

/-- Settles O21: the response of each of the four commands is a function of its operands. -/
theorem patternCommandsArePure : Obligations.PatternCommandsArePure := by
  rintro i (⟨bits, used, rfl⟩ | ⟨a, b, rfl⟩ | ⟨a, rfl⟩ | ⟨a, rfl⟩)
  · exact ⟨.result false (fromRaw bits used), rfl, fun _ => rfl⟩
  · exact ⟨.result false (append a b), rfl, fun _ => rfl⟩
  · exact ⟨.result false (reverse a), rfl, fun _ => rfl⟩
  · exact ⟨.result (pstep a).1 (pstep a).2, rfl, fun _ => rfl⟩

end

section
/-! 41_sequencer_ops.md R131, R135, R136, R145: the commands of the Sequencer that drive nothing, and the one effect
that both enqueue commands share. -/

namespace Sys2Proof.Machine

/-! ### The opcodes that select the Sequencer's commands (R73) -/

theorem decode_enqueue {w : CmdWord} (h : opField w = 0x8) : decode w = .ok (.enqueue (operandA w)) := by
  simp [decode, h]

theorem decode_tryenqueue {w : CmdWord} (h : opField w = 0x9) : decode w = .ok (.tryenqueue (operandA w)) := by
  simp [decode, h]

theorem decode_step {w : CmdWord} (h : opField w = 0xA) : decode w = .ok .step := by simp [decode, h]

theorem decode_trystep {w : CmdWord} (h : opField w = 0xB) : decode w = .ok .trystep := by simp [decode, h]

theorem decode_idle {w : CmdWord} (h : opField w = 0xC) : decode w = .ok .idle := by simp [decode, h]

/-! ### Offering a pattern to the queue -/

variable {s : State} {a : Pattern} {i : Instr}

theorem hasRoom_iff : s.hasRoom = true ↔ s.q.length < s.capacity := by simp [State.hasRoom]

theorem offer_room (h : s.q.length < s.capacity) : s.offer a = s.pushTail a := if_pos (hasRoom_iff.2 h)

theorem exec_tryenqueue (a : Pattern) (s : State) :
    exec (.tryenqueue a) s = .next ((s.offer a).respond (if s.hasRoom then .done else ⟨.full, false, a, 0⟩)) := rfl

theorem exec_enqueue (a : Pattern) (s : State) : exec (.enqueue a) s = .next ((s.offer a).respond .done) := rfl

/-- The two enqueue commands differ only in the response (R136). -/
theorem exec_of_enqueue (hi : i = .enqueue a ∨ i = .tryenqueue a) (s : State) :
    ∃ r, exec i s = .next ((s.offer a).respond r) := by
  rcases hi with rfl | rfl
  · exact ⟨_, exec_enqueue a s⟩
  · exact ⟨_, exec_tryenqueue a s⟩

end Sys2Proof.Machine

open Sys2Proof Sys2Proof.Machine

/-- Settles O26: with room the offer is a push at the tail, without it is nothing. -/
theorem tryenqueueQueuesOrHandsBack : Obligations.TryenqueueQueuesOrHandsBack := by
  refine ⟨fun _ h => decode_tryenqueue h, fun a s => ⟨fun hroom => ?_, fun hfull => ?_⟩⟩
  · rw [exec_tryenqueue, offer_room hroom, if_pos (hasRoom_iff.2 hroom)]
    rfl
  · rw [exec_tryenqueue, offer_full s a hfull, if_neg (mt hasRoom_iff.1 (Nat.not_lt.2 hfull))]
    rfl

/-- Settles O27: the offer of TRYENQUEUE, answered OK. -/
theorem enqueueQueuesOrDrops : Obligations.EnqueueQueuesOrDrops := by
  refine ⟨fun _ h => decode_enqueue h, fun a s => ⟨fun hroom => ?_, fun hfull => ?_⟩⟩
  · rw [exec_enqueue, offer_room hroom]
    rfl
  · rw [exec_enqueue, offer_full s a hfull]
    rfl

/-- Settles O28: the bit answered is `is_idle`. -/
theorem idleAnswersWhetherAnythingIsLeft : Obligations.IdleAnswersWhetherAnythingIsLeft :=
  ⟨fun _ h => decode_idle h, fun s => ⟨s.isIdle, by rw [isIdle_iff, List.length_eq_zero_iff], rfl⟩⟩

end

section
/-! 41_sequencer_ops.md R140 to R142: STEP and TRYSTEP are one transition, `State.advance`, and differ in what they
answer. -/

namespace Sys2Proof.Machine

variable {s : State} {r : Response} {i : Instr}

theorem exec_step (s : State) : exec .step s = .next (s.advance.respond .done) := rfl

theorem exec_trystep (s : State) : exec .trystep s = .next (s.advance.respond (pinReport s.pinAnswer)) := rfl

/-- The two step commands differ only in the response (R142). -/
theorem exec_of_step (hi : i = .step ∨ i = .trystep) (s : State) : ∃ r, exec i s = .next (s.advance.respond r) := by
  rcases hi with rfl | rfl
  · exact ⟨_, exec_step s⟩
  · exact ⟨_, exec_trystep s⟩

/-- The step transition with its response is `State.afterStep` of what `seq_step` gives, one answer used up. -/
theorem advance_respond_eq_afterStep (s : State) (r : Response) :
    s.advance.respond r =
      { s.afterStep (seqStep s).1 (seqStep s).2.cur (seqStep s).2.q r with
        answers := s.answers.tail, draws := s.draws + 1 } := by
  simp [State.advance, State.drive, State.respond, State.afterStep, level, seqStep]

theorem nextUpToAnswers_of_seqStep (h : exec i s = .next (s.advance.respond r)) {value : Bool} {cur : Option Slot}
    {q : List Pattern} (hs : seqStep s = (value, { s with cur := cur, q := q })) :
    NextUpToAnswers (exec i s) (s.afterStep value cur q r) :=
  ⟨s.answers.tail, s.draws + 1, by rw [h, advance_respond_eq_afterStep, hs]⟩

/-- A command that advances and answers `r` performs R140's transition in each of its three cases. -/
theorem stepsAs_of_exec_eq_advance (h : exec i s = .next (s.advance.respond r)) : StepsAs i s r := by
  refine ⟨fun hcur hz => ?_, fun z p rest hcur hq hz hp => ?_, fun c hcur => ?_⟩
  · exact nextUpToAnswers_of_seqStep h (by rw [seqStep_exhausted s hcur hz, ← hcur])
  · exact nextUpToAnswers_of_seqStep h (by rw [seqStep_loads s z rest p hcur hq hz hp, slotAfter_fresh])
  · exact nextUpToAnswers_of_seqStep h (by rw [seqStep_draining s c hcur, slotAfter_advance])

theorem pinReport_ok : pinReport .ok = ⟨.ok, false, ⟨0, 0⟩, 0⟩ := rfl

theorem pinReport_err (e : Nat) : pinReport (.err e) = ⟨.pinerr, false, ⟨0, 0⟩, e⟩ := rfl

end Sys2Proof.Machine

open Sys2Proof Sys2Proof.Machine

/-- Settles O29: STEP is the step transition answered OK. -/
theorem stepPlaysOneStepAndAnswersOk : Obligations.StepPlaysOneStepAndAnswersOk :=
  ⟨fun _ h => decode_step h, fun s => stepsAs_of_exec_eq_advance (exec_step s)⟩

/-- Settles O30: TRYSTEP is the step transition answered with the report of the pin's answer. -/
theorem trystepPlaysOneStepAndReportsThePin : Obligations.TrystepPlaysOneStepAndReportsThePin := by
  refine ⟨fun _ h => decode_trystep h, fun s => ⟨pinReport s.pinAnswer, stepsAs_of_exec_eq_advance (exec_trystep s),
    fun as has => ?_, fun e as has he => ?_, ?_⟩⟩
  · rw [pinAnswer_fixed s .ok as has, sampleAnswer, pinReport_ok]
  · rw [pinAnswer_fixed s (.err e) as has, sampleAnswer, Nat.mod_eq_of_lt he, pinReport_err]
  · rcases pinAnswer_cases s with hok | ⟨e, he, herr⟩
    · exact .inl (by rw [hok, pinReport_ok])
    · exact .inr ⟨e, he, by rw [herr, pinReport_err]⟩

end

section
/-! 41_sequencer_ops.md R131: the transition table. -/

namespace Sys2Proof.Machine

variable {s t : State} {a : Pattern}

theorem seqState_eq_idle_iff : s.seqState = .idle ↔ s.cur = none ∧ s.q = [] := (seqState_eq_iff s).1

theorem seqState_eq_loading_iff : s.seqState = .loading ↔ s.cur = none ∧ s.q ≠ [] := (seqState_eq_iff s).2.1

theorem seqState_eq_draining_iff : s.seqState = .draining ↔ s.cur ≠ none := (seqState_eq_iff s).2.2

@[simp] theorem respond_seqState (s : State) (r : Response) : (s.respond r).seqState = s.seqState := rfl

@[simp] theorem advance_seqState (s : State) : s.advance.seqState = (seqStep s).2.seqState := rfl

theorem slotAfter_of_le {raw : Raw} {used : Used} {n : Nat} (h : min used.toNat 32 ≤ n) :
    slotAfter raw used n = none := if_pos h

theorem slotAfter_of_lt {raw : Raw} {used : Used} {n : Nat} (h : n < min used.toNat 32) :
    slotAfter raw used n = some ⟨raw.rotateRight 1, used, BitVec.ofNat 6 n⟩ := if_neg (Nat.not_le.2 h)

/-- The rows of a pattern's extraction number `n`: it stays current with cursor `n`, or it was the last and the queue
decides. -/
theorem seqState_rows_of_slotAfter {p : Pattern} {n : Nat} (hcur : t.cur = slotAfter p.raw p.used n) :
    (n < p.len → t.seqState = .draining ∧ t.cur.map Slot.cursor = some (BitVec.ofNat 6 n)) ∧
    (n = p.len → t.q = [] → t.seqState = .idle) ∧ (n = p.len → t.q ≠ [] → t.seqState = .loading) := by
  refine ⟨fun hlt => ?_, fun hlen hq => ?_, fun hlen hq => ?_⟩
  · rw [slotAfter_of_lt hlt] at hcur
    exact ⟨seqState_of_cur_some t hcur, by rw [hcur]; rfl⟩
  · exact seqState_eq_idle_iff.2 ⟨hcur.trans (slotAfter_of_le hlen.ge), hq⟩
  · exact seqState_eq_loading_iff.2 ⟨hcur.trans (slotAfter_of_le hlen.ge), hq⟩

/-- Rows Idle and Loading with nothing but empty patterns: "inactive" is emitted and the Sequencer is idle. -/
theorem advance_of_exhausted (hcur : s.cur = none) (hq : ∀ p ∈ s.q, p.used = 0) :
    s.advance.seqState = .idle ∧ s.advance.drives = s.drives ++ [s.activeLow ^^ false] := by
  rw [advance_seqState, advance_drives, seqStep_exhausted s hcur hq]
  exact ⟨seqState_eq_idle_iff.2 ⟨hcur, rfl⟩, rfl⟩

/-- Rows Loading and Draining: bit 0 is emitted, and the extraction's number and the queue decide the state. -/
theorem advance_of_extraction {p : Pattern} {n : Nat} {q : List Pattern}
    (hs : seqStep s = (p.raw.getLsbD 0, { s with q := q, cur := slotAfter p.raw p.used n })) :
    s.advance.drives = s.drives ++ [s.activeLow ^^ p.raw.getLsbD 0] ∧
    (n < p.len → s.advance.seqState = .draining ∧ s.advance.cur.map Slot.cursor = some (BitVec.ofNat 6 n)) ∧
    (n = p.len → q = [] → s.advance.seqState = .idle) ∧ (n = p.len → q ≠ [] → s.advance.seqState = .loading) := by
  have hcur : s.advance.cur = slotAfter p.raw p.used n := by rw [advance_cur, hs]
  have hq : s.advance.q = q := by rw [advance_q, hs]
  exact ⟨by rw [advance_drives, hs], hq ▸ seqState_rows_of_slotAfter hcur⟩

/-- An accepted enqueue leaves the current slot alone and a pattern queued, so what is current decides the state. -/
theorem offer_seqState_of_room (h : s.q.length < s.capacity) :
    (s.cur = none → (s.offer a).seqState = .loading) ∧ (s.cur ≠ none → (s.offer a).seqState = .draining) := by
  have hq : (s.offer a).q ≠ [] := by simp [offer_q, h]
  exact ⟨fun hcur => seqState_eq_loading_iff.2 ⟨by rw [offer_cur, hcur], hq⟩,
    fun hcur => seqState_eq_draining_iff.2 (by rwa [offer_cur])⟩

end Sys2Proof.Machine

open Sys2Proof Sys2Proof.Machine

/-- Settles O33: the rows of the step commands are what a step leaves in the slot and the queue; the rows of the enqueue
commands are what the offer leaves. -/
theorem transitionTableHoldsRowByRow : Obligations.TransitionTableHoldsRowByRow := by
  refine ⟨fun s i hi => ?_, fun s a i hi => ?_⟩
  · obtain ⟨r, hexec⟩ := exec_of_step hi s
    refine ⟨_, hexec, ?_⟩
    rw [respond_seqState, respond_drives, respond_cur]
    refine ⟨fun hidle => ?_, fun hloading hz => ?_, fun z p rest hcur hq hz hp => ?_, fun c hcur => ?_⟩
    · obtain ⟨hcur, hq⟩ := seqState_eq_idle_iff.1 hidle
      exact advance_of_exhausted hcur (by simp [hq])
    · exact advance_of_exhausted (seqState_eq_loading_iff.1 hloading).1 hz
    · have hs := seqStep_loads s z rest p hcur hq hz hp
      rw [← slotAfter_fresh] at hs
      obtain ⟨hdrives, hmore, hidle, hloading⟩ := advance_of_extraction hs
      exact ⟨hdrives, hmore, fun hlen => hidle hlen.symm, fun hlen => hloading hlen.symm⟩
    · have hs := seqStep_draining s c hcur
      rw [← slotAfter_advance] at hs
      obtain ⟨hdrives, hmore, hidle, hloading⟩ := advance_of_extraction (p := c.pattern) hs
      refine ⟨hdrives, fun hlt => ⟨(hmore hlt).1, ?_⟩, hidle, hloading⟩
      have hfits : c.cursor.toNat + 1 < 64 := hlt.trans_le ((len_le c.pattern).trans (by decide))
      simpa [Nat.mod_eq_of_lt hfits] using congrArg (Option.map BitVec.toNat) (hmore hlt).2
  · obtain ⟨r, hexec⟩ := exec_of_enqueue hi s
    refine ⟨_, hexec, by simp, fun hroom h => ?_, fun hroom h => ?_, fun hroom h => ?_, fun hfull => ?_⟩
    · exact (offer_seqState_of_room hroom).1 (seqState_eq_idle_iff.1 h).1
    · exact (offer_seqState_of_room hroom).1 (seqState_eq_loading_iff.1 h).1
    · exact (offer_seqState_of_room hroom).2 (seqState_eq_draining_iff.1 h)
    · simp [offer_full s a hfull]

end

section
/-! 41_sequencer_ops.md R147, R148: what is still to be played is a list; a step command plays its head and leaves its
tail, and the block is idle when the list and the trailing empty pattern are used up. -/

namespace Sys2Proof.Machine

variable {s : State} {c : Slot}

/-- Both `Slot.remaining` and `Pattern.steps` are lists of this form. -/
theorem map_range_eq_cons {n : Nat} (hn : 0 < n) (f : Nat → Bool) :
    (List.range n).map f = f 0 :: ((List.range n).map f).tail := by
  obtain ⟨m, rfl⟩ := Nat.exists_eq_add_of_lt hn
  simp [List.range_succ_eq_map]

theorem valid_iff : c.valid = true ↔ 1 ≤ c.len ∧ c.cursor.toNat < c.len := by simp [Slot.valid]

/-- A valid slot plays bit 0 and leaves the slot of R140 item 2. -/
theorem remaining_of_valid (h : c.valid = true) :
    c.remaining = c.raw.getLsbD 0 :: remainingOf (slotAfter c.raw c.used (c.cursor.toNat + 1)) := by
  have hlt := (valid_iff.1 h).2
  rw [remaining_slotAfter c.raw c.used _ hlt]
  exact map_range_eq_cons (Nat.sub_pos_of_lt hlt) _

/-- A pattern with steps plays bit 0 and leaves the slot of R140 item 2. -/
theorem steps_of_used_ne_zero {p : Pattern} (h : p.used ≠ 0) :
    p.steps = p.raw.getLsbD 0 :: remainingOf (slotAfter p.raw p.used 1) := by
  rw [remaining_slotAfter p.raw p.used 0 (len_pos h)]
  exact map_range_eq_cons (len_pos h) _

/-- The step transition plays the first of the steps still to be played and keeps the trailing empty pattern; or there is
none, it emits "inactive", and the block is idle after it (R147). -/
theorem seqStep_playlist (hv : s.cur.all Slot.valid = true) :
    (s.playlist = (seqStep s).1 :: (seqStep s).2.playlist ∧ trailingEmpty (seqStep s).2.q = trailingEmpty s.q) ∨
    (s.playlist = [] ∧ (seqStep s).1 = false ∧ (seqStep s).2.isIdle = true) := by
  rcases seqStep_slotAfter s with ⟨c, hcur, hval, hq, hcur'⟩ | ⟨hcur, hz, hval, hq, hcur'⟩ |
    ⟨z, p, rest, hcur, hqs, hz, hp, hval, hq, hcur'⟩
  · have hvalid : c.valid = true := by simpa [hcur] using hv
    left
    rw [playlist_eq, playlist_eq, hval, hq, hcur, hcur', remainingOf, remaining_of_valid hvalid]
    exact ⟨rfl, rfl⟩
  · right
    rw [playlist_eq, hcur, flatMap_steps_of_empty s.q hz]
    exact ⟨rfl, hval, (isIdle_iff _).2 ⟨hcur', hq⟩⟩
  · left
    rw [playlist_eq, playlist_eq, hval, hq, hqs, hcur, hcur', trailingEmpty_behind z rest p hp, List.flatMap_append,
      flatMap_steps_of_empty z hz, List.flatMap_cons, steps_of_used_ne_zero hp]
    exact ⟨rfl, rfl⟩

theorem seqStep_cur_valid (s : State) : (seqStep s).2.cur.all Slot.valid = true := by
  rcases seqStep_slotAfter s with ⟨c, -, -, -, h⟩ | ⟨-, -, -, -, h⟩ | ⟨z, p, rest, -, -, -, -, -, -, h⟩ <;> rw [h]
  · exact slotAfter_valid _ _ _
  · rfl
  · exact slotAfter_valid _ _ _

theorem trailingEmpty_le (q : List Pattern) : trailingEmpty q ≤ 1 := by
  unfold trailingEmpty
  split
  · split <;> omega
  · omega

/-- A queue without steps and without a trailing empty pattern is empty. -/
theorem queue_eq_nil_of_drained {q : List Pattern} (hp : q.flatMap Pattern.steps = []) (hz : trailingEmpty q = 0) :
    q = [] := by
  rcases List.eq_nil_or_concat q with rfl | ⟨q, p, rfl⟩
  · rfl
  · have hused : p.used ≠ 0 := by simpa [trailingEmpty] using hz
    simp [steps_of_used_ne_zero hused] at hp

/-- The block is idle exactly when nothing is left to drain (R148). -/
theorem isIdle_iff_drainTime (hv : s.cur.all Slot.valid = true) : s.isIdle = true ↔ s.drainTime = 0 := by
  rw [isIdle_iff, State.drainTime, playlist_eq, Nat.add_eq_zero_iff, List.length_eq_zero_iff, List.append_eq_nil_iff]
  constructor
  · rintro ⟨hcur, hq⟩
    simp [hcur, hq, remainingOf, trailingEmpty]
  · rintro ⟨⟨hcur, hplay⟩, htrail⟩
    refine ⟨?_, queue_eq_nil_of_drained hplay htrail⟩
    cases hc : s.cur with
    | none => rfl
    | some c =>
      have hvalid : c.valid = true := by simpa [hc] using hv
      simp [hc, remainingOf, remaining_of_valid hvalid] at hcur

theorem seqStep_value (hv : s.cur.all Slot.valid = true) : (seqStep s).1 = s.playlist.headD false := by
  rcases seqStep_playlist hv with ⟨hplay, -⟩ | ⟨hplay, hval, -⟩
  · rw [hplay, List.headD_cons]
  · rw [hplay, hval, List.headD_nil]

theorem playlist_seqStep (hv : s.cur.all Slot.valid = true) : (seqStep s).2.playlist = s.playlist.tail := by
  rcases seqStep_playlist hv with ⟨hplay, -⟩ | ⟨hplay, -, hidle⟩
  · rw [hplay, List.tail_cons]
  · obtain ⟨hcur, hq⟩ := (isIdle_iff _).1 hidle
    rw [hplay, playlist_eq, hcur, hq]
    rfl

/-- One step command takes one off what is left to drain: a step, or the trailing empty pattern. -/
theorem drainTime_seqStep (hv : s.cur.all Slot.valid = true) : (seqStep s).2.drainTime = s.drainTime - 1 := by
  rcases seqStep_playlist hv with ⟨hplay, htrail⟩ | ⟨hplay, -, hidle⟩
  · rw [State.drainTime, State.drainTime, htrail, hplay, List.length_cons]
    omega
  · have hle : trailingEmpty s.q ≤ 1 := trailingEmpty_le s.q
    rw [(isIdle_iff_drainTime (seqStep_cur_valid s)).1 hidle, State.drainTime, hplay, List.length_nil]
    omega

/-- The levels that `n` step commands drive when the steps `l` are still to be played (R147, R170). -/
def drivenLevels (activeLow : Bool) (l : List Bool) (n : Nat) : List Bool :=
  (List.range n).map fun k => activeLow ^^ l.getD k false

theorem drivenLevels_succ (al : Bool) (l : List Bool) (n : Nat) :
    drivenLevels al l (n + 1) = (al ^^ l.headD false) :: drivenLevels al l.tail n := by
  cases l <;> simp [drivenLevels, List.range_succ_eq_map, Function.comp_def]

/-- The state after a step command: one step less to play, one level driven. -/
theorem exec_step_playlist {i : Instr} (hi : i = .step ∨ i = .trystep) (hv : s.cur.all Slot.valid = true) :
    ∃ t, exec i s = .next t ∧ t.cur.all Slot.valid = true ∧ t.activeLow = s.activeLow ∧
      t.drives = s.drives ++ [s.activeLow ^^ s.playlist.headD false] ∧ t.playlist = s.playlist.tail ∧
      t.drainTime = s.drainTime - 1 := by
  obtain ⟨r, hexec⟩ := exec_of_step hi s
  exact ⟨_, hexec, seqStep_cur_valid s, rfl, by rw [respond_drives, advance_drives, seqStep_value hv],
    playlist_seqStep hv, drainTime_seqStep hv⟩

end Sys2Proof.Machine

open Sys2Proof Sys2Proof.Machine

/-- Settles O34, by induction on the commands: each plays the head of what is left and leaves its tail. -/
theorem stepCommandsPlayEverythingThenIdle : Obligations.StepCommandsPlayEverythingThenIdle := by
  intro s cs
  induction cs generalizing s with
  | nil =>
    intro hv _
    exact ⟨s, rfl, (List.append_nil _).symm, rfl, by rw [isIdle_iff_drainTime hv, List.length_nil, Nat.le_zero]⟩
  | cons i cs ih =>
    intro hv hsteps
    obtain ⟨u, hexec, huv, hual, hudrives, huplay, hudrain⟩ := exec_step_playlist (hsteps i (by simp)) hv
    obtain ⟨t, hrun, hdrives, hal, hidle⟩ := ih u huv fun j hj => hsteps j (by simp [hj])
    refine ⟨t, by rw [runInstrs, hexec]; exact hrun, ?_, hal.trans hual, ?_⟩
    · calc t.drives
          = u.drives ++ drivenLevels u.activeLow u.playlist cs.length := hdrives
        _ = s.drives ++ drivenLevels s.activeLow s.playlist (cs.length + 1) := by
          rw [drivenLevels_succ, hudrives, hual, huplay, List.append_assoc, List.singleton_append]
    · rw [hidle, hudrain, List.length_cons, Nat.sub_le_iff_le_add]

end

section
/-! 42_output_mux.md R177 with 30_encoding.md R75: the events that one input adds to the trace. -/

namespace Sys2Proof.Machine

variable {s : State} {w : CmdWord} {i : Instr} {rest : List Input} {al : Bool}

/-! ### One step, by the input the caller has waiting -/

theorem step_of_inputs_nil (hi : s.inputs = []) : step s = .next s := by simp [step, State.takeInput, hi]

theorem step_of_inputs_new (hi : s.inputs = .new al :: rest) : step s = .next ((s.withInputs rest).renew al) := by
  simp [step, State.takeInput, hi]

theorem step_of_inputs_command (hi : s.inputs = .command w :: rest) (hr : s.wasReset = true) :
    step s = runWord w (s.withInputs rest) := by
  simp [step, State.takeInput, hi, hr]

theorem runWord_of_decode_ok (h : decode w = .ok i) (s : State) : runWord w s = exec i s := by simp [runWord, h]

theorem runWord_of_decode_error {e : DecodeReject} (h : decode w = .error e) (s : State) :
    runWord w s = .next s.respondIllegal := by simp [runWord, h]

/-! ### Which command words drive -/

theorem opField_of_decode (h : decode w = .ok i) : opField w = i.opcode := by
  unfold decode at h
  split at h <;> cases h <;> exact BitVec.eq_of_toNat_eq ‹_›

theorem opcode_eq_step_iff : i.opcode = 0xA ∨ i.opcode = 0xB ↔ i = .step ∨ i = .trystep := by
  cases i <;> simp [Instr.opcode]

/-- A step command drives and then answers; every other command only answers. -/
theorem exec_trace (i : Instr) (s : State) : ∃ t r, exec i s = .next t ∧
    t.trace = s.trace ++ if i = .step ∨ i = .trystep then [.drive t.pinLvl, .response r] else [.response r] := by
  by_cases hi : i = .step ∨ i = .trystep
  · obtain ⟨r, hexec⟩ := exec_of_step hi s
    exact ⟨_, r, hexec, by simp [hi]⟩
  · rcases exec_cases i s with ⟨r, hexec, -⟩ | ⟨a, r, -, hexec⟩ | ⟨r, hstep, -⟩
    · exact ⟨_, r, hexec, by simp [hi]⟩
    · exact ⟨_, r, hexec, by simp [hi]⟩
    · exact absurd hstep hi

/-- The opcode of a command word, a reserved one among them, decides what it adds to the trace. -/
theorem runWord_trace (w : CmdWord) (s : State) : ∃ t r, runWord w s = .next t ∧
    t.trace = s.trace ++
      if opField w = 0xA ∨ opField w = 0xB then [.drive t.pinLvl, .response r] else [.response r] := by
  cases hd : decode w with
  | ok i => simpa only [runWord_of_decode_ok hd, opField_of_decode hd, opcode_eq_step_iff] using exec_trace i s
  | error e =>
    have hop : ¬(opField w = 0xA ∨ opField w = 0xB) := by
      rintro (h | h)
      · cases (decode_step h).symm.trans hd
      · cases (decode_trystep h).symm.trans hd
    exact ⟨_, _, runWord_of_decode_error hd s, by rw [if_neg hop]; rfl⟩

end Sys2Proof.Machine

open Sys2Proof Sys2Proof.Machine

/-- Settles O38: NEW ends in a drive and no response; the opcode of a command word decides its events. -/
theorem driveEventsAndResponsesPerInput : Obligations.DriveEventsAndResponsesPerInput := by
  refine fun s hr => ⟨fun al rest hi => ⟨_, step_of_inputs_new hi, by simp⟩, fun w rest hi => ?_⟩
  rw [step_of_inputs_command hi hr]
  exact runWord_trace w (s.withInputs rest)

end

section
/-! 42_output_mux.md R175: a state with everything that comes from the pin blotted out is enough to run the machine
on. -/

namespace Sys2Proof.Machine

/-- An event with the pin's answer blotted out, as `Response.withoutPin` does for a response. -/
def Event.withoutPin : Event → Event
  | .drive l    => .drive l
  | .response r => .response r.withoutPin

/-- A state with the pin's answers blotted out: those to come, how many there have been, and those reported. -/
def State.withoutPin (s : State) : State :=
  { s with answers := [], draws := 0, trace := s.trace.map Event.withoutPin }

/-- Two states differ at most in the pin's answers, past and to come. -/
def SameButPin (s s' : State) : Prop := s.withoutPin = s'.withoutPin

variable {s s' : State} {r r' : Response} {rest : List Input} {i : Instr} {w : CmdWord}

/-! ### What is blotted out of the sequences read off the trace -/

@[simp] theorem level?_withoutPin (e : Event) : e.withoutPin.level? = e.level? := by cases e <;> rfl

@[simp] theorem response?_withoutPin (e : Event) : e.withoutPin.response? = e.response?.map Response.withoutPin := by
  cases e <;> rfl

theorem withoutPin_drives (s : State) : s.withoutPin.drives = s.drives := by
  simp [State.drives, State.withoutPin, List.filterMap_map]

theorem withoutPin_responses (s : State) : s.withoutPin.responses = s.responses.map Response.withoutPin := by
  simp [State.responses, State.withoutPin, List.filterMap_map, List.map_filterMap]

/-- Both reports of a TRYSTEP look the same (R176). -/
theorem pinReport_withoutPin (a : PinAnswer) : (pinReport a).withoutPin = .done := by cases a <;> rfl

/-! ### Each operation acts on the blotted state as on the whole one; a drive also counts itself -/

theorem withInputs_withoutPin (s : State) (rest : List Input) :
    (s.withInputs rest).withoutPin = s.withoutPin.withInputs rest := rfl

theorem respond_withoutPin (s : State) (r : Response) :
    (s.respond r).withoutPin = s.withoutPin.respond r.withoutPin := by
  simp [State.withoutPin, State.respond, Event.withoutPin]

theorem offer_withoutPin (s : State) (a : Pattern) : (s.offer a).withoutPin = s.withoutPin.offer a := by
  unfold State.offer
  rw [show s.withoutPin.hasRoom = s.hasRoom from rfl]
  split <;> rfl

theorem drive_withoutPin (s : State) (l : Bool) :
    (s.drive l).withoutPin = { s.withoutPin.drive l with draws := 0 } := by
  simp [State.withoutPin, State.drive, Event.withoutPin]

theorem advance_withoutPin (s : State) : s.advance.withoutPin = { s.withoutPin.advance with draws := 0 } :=
  drive_withoutPin (seqStep s).2 (level s.activeLow (seqStep s).1)

theorem renew_withoutPin (s : State) (al : Bool) :
    (s.renew al).withoutPin = { s.withoutPin.renew al with draws := 0 } :=
  drive_withoutPin _ (level al false)

/-! ### So each operation, and each step, keeps two states the same but for the pin -/

namespace SameButPin

theorem withInputs (h : SameButPin s s') (rest : List Input) :
    SameButPin (s.withInputs rest) (s'.withInputs rest) := by
  rw [SameButPin, withInputs_withoutPin, withInputs_withoutPin, h]

theorem respond (h : SameButPin s s') (hr : r.withoutPin = r'.withoutPin) :
    SameButPin (s.respond r) (s'.respond r') := by
  rw [SameButPin, respond_withoutPin, respond_withoutPin, h, hr]

theorem offer (h : SameButPin s s') (a : Pattern) : SameButPin (s.offer a) (s'.offer a) := by
  rw [SameButPin, offer_withoutPin, offer_withoutPin, h]

theorem advance (h : SameButPin s s') : SameButPin s.advance s'.advance := by
  rw [SameButPin, advance_withoutPin, advance_withoutPin, h]

theorem renew (h : SameButPin s s') (al : Bool) : SameButPin (s.renew al) (s'.renew al) := by
  rw [SameButPin, renew_withoutPin, renew_withoutPin, h]

/-- Whatever does not look at the pin has one value in both. -/
theorem congr {α : Type} (h : SameButPin s s') (f : State → α) (hf : ∀ s, f s.withoutPin = f s) : f s = f s' := by
  rw [← hf s, ← hf s', h]

theorem hasRoom (h : SameButPin s s') : s.hasRoom = s'.hasRoom := h.congr State.hasRoom fun _ => rfl

theorem isIdle (h : SameButPin s s') : s.isIdle = s'.isIdle := h.congr State.isIdle fun _ => rfl

theorem inputs (h : SameButPin s s') : s.inputs = s'.inputs := h.congr State.inputs fun _ => rfl

theorem wasReset (h : SameButPin s s') : s.wasReset = s'.wasReset := h.congr State.wasReset fun _ => rfl

theorem responses (h : SameButPin s s') :
    s.responses.map Response.withoutPin = s'.responses.map Response.withoutPin := by
  rw [← withoutPin_responses, ← withoutPin_responses, h]

/-- A command answers the same but for the pin's report. -/
theorem exec (h : SameButPin s s') (i : Instr) :
    ∃ t t', exec i s = .next t ∧ exec i s' = .next t' ∧ SameButPin t t' := by
  cases i with
  | pfromraw bits used => exact ⟨_, _, rfl, rfl, h.respond rfl⟩
  | pappend a b => exact ⟨_, _, rfl, rfl, h.respond rfl⟩
  | preverse a => exact ⟨_, _, rfl, rfl, h.respond rfl⟩
  | pstep a => exact ⟨_, _, rfl, rfl, h.respond rfl⟩
  | enqueue a => exact ⟨_, _, rfl, rfl, (h.offer a).respond rfl⟩
  | tryenqueue a => exact ⟨_, _, rfl, rfl, (h.offer a).respond (by rw [h.hasRoom])⟩
  | step => exact ⟨_, _, rfl, rfl, h.advance.respond rfl⟩
  | trystep =>
    exact ⟨_, _, rfl, rfl, h.advance.respond (by rw [pinReport_withoutPin, pinReport_withoutPin])⟩
  | idle => exact ⟨_, _, rfl, rfl, h.respond (by rw [h.isIdle])⟩

theorem runWord (h : SameButPin s s') (w : CmdWord) :
    ∃ t t', runWord w s = .next t ∧ runWord w s' = .next t' ∧ SameButPin t t' := by
  cases hd : decode w with
  | ok i => simpa only [runWord_of_decode_ok hd] using h.exec i
  | error e => exact ⟨_, _, runWord_of_decode_error hd s, runWord_of_decode_error hd s', h.respond rfl⟩

theorem step (h : SameButPin s s') (hr : s.wasReset = true) :
    ∃ t t', step s = .next t ∧ step s' = .next t' ∧ SameButPin t t' := by
  rcases hi : s.inputs with _ | ⟨al | w, rest⟩
  · exact ⟨s, s', step_of_inputs_nil hi, step_of_inputs_nil (h.inputs ▸ hi), h⟩
  · exact ⟨_, _, step_of_inputs_new hi, step_of_inputs_new (h.inputs ▸ hi), (h.withInputs rest).renew al⟩
  · rw [step_of_inputs_command hi hr, step_of_inputs_command (h.inputs ▸ hi) (h.wasReset ▸ hr)]
    exact (h.withInputs rest).runWord w

end SameButPin

/-- No step takes a block back to before its first reset (R225 (a)). -/
theorem step_keeps_wasReset {t : State} (hr : s.wasReset = true) (h : step s = .next t) : t.wasReset = true := by
  rcases step_next_cases s t h with ⟨-, rfl⟩ | ⟨al, rest, -, rfl⟩ |
    ⟨w, rest, -, ⟨r, rfl⟩ | ⟨a, r, rfl⟩ | ⟨r, rfl⟩⟩ <;> simp [hr]

theorem runSteps_succ {n : Nat} {t : State} (h : step s = .next t) : runSteps (n + 1) s = runSteps n t := by
  rw [runSteps, h]

/-- A run of any length, by one step at a time. -/
theorem SameButPin.runSteps (n : Nat) (h : SameButPin s s') (hr : s.wasReset = true) :
    ∃ t t', runSteps n s = .next t ∧ runSteps n s' = .next t' ∧ SameButPin t t' := by
  induction n generalizing s s' with
  | zero => exact ⟨s, s', rfl, rfl, h⟩
  | succ n ih =>
    obtain ⟨u, u', hstep, hstep', hsame⟩ := h.step hr
    rw [runSteps_succ hstep, runSteps_succ hstep']
    exact ih hsame (step_keeps_wasReset hr hstep)

end Sys2Proof.Machine

open Sys2Proof Sys2Proof.Machine

/-- Settles O44: the two runs start the same but for the pin, so they end the same but for the pin. -/
theorem pinAnswersReachOnlyTheReport : Obligations.PinAnswersReachOnlyTheReport := by
  intro n s as d hr
  have hstart : SameButPin s { s with answers := as, draws := d } := rfl
  obtain ⟨t, t', hrun, hrun', hsame⟩ := hstart.runSteps n hr
  have hend : SameButPin t' t := hsame.symm
  exact ⟨t, t', hrun, hrun', hend.congr State.q fun _ => rfl, hend.congr State.cur fun _ => rfl,
    hend.congr State.activeLow fun _ => rfl, hend.congr State.pinLvl fun _ => rfl, hend.inputs,
    hend.congr State.drives withoutPin_drives, hend.responses⟩

end

section
/-! 60_exceptions.md R195 with 30_encoding.md R77: the answer to a reserved opcode. -/

namespace Sys2Proof.Machine

/-- The last row of R73's opcode map: the seven values of the opcode field that select no command. -/
theorem decode_reserved {w : CmdWord} (h : opField w ∈ [0x0, 0x5, 0x6, 0x7, 0xD, 0xE, 0xF]) :
    decode w = .error (.reservedOpcode (opField w)) := by
  simp only [List.mem_cons, List.not_mem_nil, or_false] at h
  rcases h with h | h | h | h | h | h | h <;> simp [decode, h]

end Sys2Proof.Machine

open Sys2Proof Sys2Proof.Machine

/-- Settles O9: the decoder rejects the word, and a rejected word is answered ILLEGAL and nothing else. -/
theorem reservedOpcodeIsAnsweredIllegalAndChangesNothing :
    Obligations.ReservedOpcodeIsAnsweredIllegalAndChangesNothing := by
  intro s w rest hi hr hop
  have hreject : decode w = .error (.reservedOpcode (opField w)) := decode_reserved hop
  calc step s
      = runWord w (s.withInputs rest) := step_of_inputs_command hi hr
    _ = .next (s.withInputs rest).respondIllegal := runWord_of_decode_error hreject _

end

section
/-! 70_reset_and_hazards.md R220 and R222: NEW from any state. -/

open Sys2Proof Sys2Proof.Machine

/-- Settles O12: the step is `State.renew` behind the rest of the inputs, which overwrites all four registers whatever
they held, so `CUR` and `Q` are empty and the block is Idle (R30). -/
theorem newWritesEveryRegisterAndDrivesInactive : Obligations.NewWritesEveryRegisterAndDrivesInactive := by
  intro s al rest hi
  have hidle : ((s.withInputs rest).renew al).isIdle = true := (isIdle_iff _).2 ⟨renew_cur .., renew_q ..⟩
  exact ⟨(s.withInputs rest).renew al, step_of_inputs_new hi, renew_activeLow .., renew_q .., renew_cur ..,
    renew_pinLvl .., renew_trace .., hidle⟩

end

section
/-! 30_encoding.md R70 to R80: the command word, the pattern word and the response word are concatenations of fields;
reading a field of a concatenation gives the field back, and masking a concatenation masks its fields. -/

namespace Sys2Proof

open Machine

variable {w : CmdWord} {i : Instr}

theorem decode_pstep (h : opField w = 0x4) : decode w = .ok (.pstep (operandA w)) := by simp [decode, h]

/-! ### Decoding what was encoded -/

/-- The opcode field of the encoding selects the row of R73's map, and that row reads back the fields packed. -/
theorem decode_encode (i : Instr) : decode (encode i) = .ok i := by
  cases i with
  | pfromraw bits used => rw [decode_pfromraw (Laws.EncodeOpcode.pfromraw bits used), encode, operandA_commandWord]
  | pappend a b =>
    rw [decode_pappend (Laws.EncodeOpcode.pappend a b), encode, operandA_commandWord, operandB_commandWord]
  | preverse a => rw [decode_preverse (Laws.EncodeOpcode.preverse a), encode, operandA_commandWord]
  | pstep a => rw [decode_pstep (Laws.EncodeOpcode.pstep a), encode, operandA_commandWord]
  | enqueue a => rw [decode_enqueue (Laws.EncodeOpcode.enqueue a), encode, operandA_commandWord]
  | tryenqueue a => rw [decode_tryenqueue (Laws.EncodeOpcode.tryenqueue a), encode, operandA_commandWord]
  | step => exact decode_step Laws.EncodeOpcode.step
  | trystep => exact decode_trystep Laws.EncodeOpcode.trystep
  | idle => exact decode_idle Laws.EncodeOpcode.idle

/-! ### Encoding what was decoded -/

/-- Adjacent slices of a command word join to one slice. -/
theorem extract_append_extract (w : CmdWord) (start len len' : Nat) :
    w.extractLsb' (start + len) len' ++ w.extractLsb' start len = w.extractLsb' start (len' + len) :=
  BitVec.extractLsb'_append_extractLsb'_eq_extractLsb' rfl

/-- A command word is its five fields (R72). -/
theorem commandWord_fields (w : CmdWord) : commandWord (opField w) (operandA w) (operandB w) = w := by
  unfold commandWord opField operandA operandB
  rw [extract_append_extract w 70 6, extract_append_extract w 38 32, extract_append_extract w 32 6,
    extract_append_extract w 0 32]
  exact BitVec.extractLsb'_eq_self

theorem commandWord_and (op op' : BitVec 4) (a a' b b' : Pattern) :
    commandWord op a b &&& commandWord op' a' b' =
      commandWord (op &&& op') ⟨a.raw &&& a'.raw, a.used &&& a'.used⟩ ⟨b.raw &&& b'.raw, b.used &&& b'.used⟩ := by
  unfold commandWord
  rw [← BitVec.and_append, ← BitVec.and_append, ← BitVec.and_append, ← BitVec.and_append]

/-- Both fields of an operand, all bits set. -/
def Pattern.ones : Pattern := ⟨BitVec.allOnes 32, BitVec.allOnes 6⟩

/-- What a mask keeps of an operand: all of it, or nothing. -/
def Pattern.keptIf (keep : Bool) (a : Pattern) : Pattern := if keep then a else .zero

/-- The mask that keeps the opcode, and of each operand all or nothing. -/
def fieldMask (keepA keepB : Bool) : CmdWord :=
  commandWord (BitVec.allOnes 4) (Pattern.ones.keptIf keepA) (Pattern.ones.keptIf keepB)

theorem and_keptIf_ones (keep : Bool) (a : Pattern) :
    (⟨a.raw &&& (Pattern.ones.keptIf keep).raw, a.used &&& (Pattern.ones.keptIf keep).used⟩ : Pattern) =
      a.keptIf keep := by
  cases keep with
  | false => exact pattern_ext BitVec.and_zero BitVec.and_zero
  | true => exact pattern_ext BitVec.and_allOnes BitVec.and_allOnes

theorem and_fieldMask (w : CmdWord) (keepA keepB : Bool) :
    w &&& fieldMask keepA keepB =
      commandWord (opField w) ((operandA w).keptIf keepA) ((operandB w).keptIf keepB) := by
  conv_lhs => rw [← commandWord_fields w, fieldMask, commandWord_and]
  rw [BitVec.and_allOnes, and_keptIf_ones, and_keptIf_ones]

/-- Whether operand A is among the bits a command reads (R73). -/
def Instr.readsA : Instr → Bool
  | .step | .trystep | .idle => false
  | _ => true

/-- Whether operand B is among the bits a command reads: PAPPEND alone has one (R73). -/
def Instr.readsB : Instr → Bool
  | .pappend _ _ => true
  | _ => false

/-- The three masks that occur in the opcode table. -/
theorem fieldMask_values :
    fieldMask false false = 0xF0000000000000000000 ∧ fieldMask true false = 0xFFFFFFFFFFC000000000 ∧
    fieldMask true true = 0xFFFFFFFFFFFFFFFFFFFF := by decide

/-- The masks of the opcode table, field by field. -/
theorem significantBits_eq_fieldMask (i : Instr) : i.significantBits = fieldMask i.readsA i.readsB := by
  obtain ⟨hopcode, hA, hAB⟩ := fieldMask_values
  cases i with
  | pfromraw | preverse | pstep | enqueue | tryenqueue => exact hA.symm
  | pappend => exact hAB.symm
  | step | trystep | idle => exact hopcode.symm

/-- A word that decodes encodes again to its opcode and the operands its command reads. -/
theorem encode_of_decode (h : decode w = .ok i) :
    encode i = commandWord (opField w) ((operandA w).keptIf i.readsA) ((operandB w).keptIf i.readsB) := by
  have hop : opField w = i.opcode := opField_of_decode h
  rw [hop]
  cases i with
  | pfromraw bits used => cases (decode_pfromraw hop).symm.trans h; rfl
  | pappend a b => cases (decode_pappend hop).symm.trans h; rfl
  | preverse a => cases (decode_preverse hop).symm.trans h; rfl
  | pstep a => cases (decode_pstep hop).symm.trans h; rfl
  | enqueue a => cases (decode_enqueue hop).symm.trans h; rfl
  | tryenqueue a => cases (decode_tryenqueue hop).symm.trans h; rfl
  | step => rfl
  | trystep => rfl
  | idle => rfl

/-! ### The response word -/

namespace Machine

variable (ew : Nat) (r : Response)

/-- The 41 bits below the error value (R75). -/
theorem word_low (start len : Nat) (h : start + len ≤ 41) :
    (r.word ew).extractLsb' start len = (r.status.code ++ BitVec.ofBool r.bit ++ r.pw.word).extractLsb' start len :=
  BitVec.extractLsb'_append_eq_of_add_le h

theorem word_pw : (r.word ew).extractLsb' 0 38 = r.pw.word :=
  (word_low ew r 0 38 (by decide)).trans BitVec.extractLsb'_append_eq_right

theorem word_status : (r.word ew).extractLsb' 39 2 = r.status.code := by
  rw [word_low ew r 39 2 (by decide), BitVec.extractLsb'_append_eq_of_le (by decide)]
  exact BitVec.extractLsb'_append_eq_left

theorem word_bit : (r.word ew).getLsbD 38 = r.bit := by
  have hbit : (r.word ew).extractLsb' 38 1 = BitVec.ofBool r.bit := by
    rw [word_low ew r 38 1 (by decide), BitVec.extractLsb'_append_eq_of_le (by decide)]
    exact BitVec.extractLsb'_append_eq_right
  simpa [BitVec.getLsbD_ofBool] using congrArg (BitVec.getLsbD · 0) hbit

theorem word_err : ((r.word ew).extractLsb' 41 ew).toNat = r.err % 2 ^ ew := by
  have herr : (r.word ew).extractLsb' 41 ew = BitVec.ofNat ew r.err := BitVec.extractLsb'_append_eq_left
  rw [herr, BitVec.toNat_ofNat]

end Machine

/-! ### Source lines with pattern operands (R79, R80) -/

/-- A line that can be assembled issues the word of its command, which decodes to that command. -/
theorem assemble_decodes {c : SourceCmd} (hc : c.wellFormed = true) (hi : c.action = .command (encode i)) :
    ∃ w, c.assemble = some (.command w) ∧ decode w = .ok i :=
  ⟨encode i, by rw [SourceCmd.assemble, if_pos hc, hi], decode_encode i⟩

theorem eval_lit (raw : Raw) (used : Used) : (PatExpr.lit raw.toNat used.toNat).eval = ⟨raw, used⟩ := by
  simp [PatExpr.eval]

theorem eval_pat (bits : Raw) (used : Used) : (PatExpr.pat bits.toNat used.toNat).eval = fromRaw bits used := by
  simp [PatExpr.eval]

end Sys2Proof

open Sys2Proof Sys2Proof.Machine

/-- Settles O1, one command at a time: its opcode selects its row, and the operands packed are read back. -/
theorem decodeOfEncodeIsIdentity : Obligations.DecodeOfEncodeIsIdentity := decode_encode

/-- Settles O2: both sides are the opcode and the operands that the command reads. -/
theorem encodeOfDecodeClearsIgnoredFields : Obligations.EncodeOfDecodeClearsIgnoredFields := by
  intro w i h
  rw [significantBits_eq_fieldMask, and_fieldMask]
  exact encode_of_decode h

/-- Settles O3: the rows of the decoder, and the seven values without a row. -/
theorem opcodeMapSelectsTheCommand : Obligations.OpcodeMapSelectsTheCommand := fun _ =>
  ⟨decode_pfromraw, decode_pappend, decode_preverse, decode_pstep, decode_enqueue, decode_tryenqueue, decode_step,
    decode_trystep, decode_idle, decode_reserved⟩

/-- Settles O4: the ten words, decoded. -/
theorem wordsOfTheTestVectorsDecode : Obligations.WordsOfTheTestVectorsDecode := by
  unfold Obligations.WordsOfTheTestVectorsDecode
  decide

/-- Settles O5: the pattern word is the concatenation of its two fields, and splits into them again. -/
theorem patternWordPacksUsedAboveRaw : Obligations.PatternWordPacksUsedAboveRaw := by
  refine ⟨fun p => ?_, fun w => ?_⟩
  · have hused : p.word.extractLsb' 32 6 = p.used := BitVec.extractLsb'_append_eq_left
    have hraw : p.word.extractLsb' 0 32 = p.raw := BitVec.extractLsb'_append_eq_right
    exact ⟨hused, hraw, pattern_ext hraw hused⟩
  · calc (Pattern.ofWord w).word
        = w.extractLsb' 0 38 := BitVec.extractLsb'_append_extractLsb'_eq_extractLsb' (Nat.zero_add 32).symm
      _ = w := BitVec.extractLsb'_eq_self

/-- Settles O6: each field is the slice of the concatenation that R75 names. -/
theorem responseWordFieldsStandWhereTheSpecPutsThem : Obligations.ResponseWordFieldsStandWhereTheSpecPutsThem :=
  ⟨fun ew r => ⟨word_pw ew r, word_bit ew r, word_status ew r, word_err ew r⟩, rfl, rfl, rfl, rfl⟩

/-- Settles O7: the word issued is the encoding of the command with its operands evaluated. -/
theorem pseudoOperandsAreEvaluatedByTheAssembler : Obligations.PseudoOperandsAreEvaluatedByTheAssembler := by
  refine ⟨fun e he => ⟨assemble_decodes he rfl, assemble_decodes he rfl, assemble_decodes he rfl,
    assemble_decodes he rfl⟩, fun e f he hf => ?_, eval_lit, eval_pat, fun _ _ => rfl, fun _ => rfl⟩
  have hef : (SourceCmd.pappend e f).wellFormed = true := by simp [SourceCmd.wellFormed, he, hf]
  exact assemble_decodes hef rfl

end

section
/-! Every command is an effect on the registers followed by one response (R75). What a command answers and what it
changes are so two separate questions. -/

namespace Sys2Proof.Machine

/-- What a command does before it answers. -/
def effect (i : Instr) (s : State) : State :=
  match i with
  | .enqueue a | .tryenqueue a => s.offer a
  | .step | .trystep           => s.advance
  | _                          => s

/-- What a command answers. -/
def reply (i : Instr) (s : State) : Response :=
  match i with
  | .pfromraw bits used => .result false (fromRaw bits used)
  | .pappend a b        => .result false (append a b)
  | .preverse a         => .result false (reverse a)
  | .pstep a            => .result (pstep a).1 (pstep a).2
  | .enqueue _          => .done
  | .tryenqueue a       => if s.hasRoom then .done else ⟨.full, false, a, 0⟩
  | .step               => .done
  | .trystep            => pinReport s.pinAnswer
  | .idle               => ⟨.ok, s.isIdle, .zero, 0⟩

theorem exec_eq (i : Instr) (s : State) : exec i s = .next ((effect i s).respond (reply i s)) := by
  cases i <;> rfl

theorem effect_of_step {i : Instr} (hi : i = .step ∨ i = .trystep) (s : State) : effect i s = s.advance := by
  rcases hi with rfl | rfl <;> rfl

/-- A command that is no step command offers a pattern to the queue, or does nothing. -/
theorem effect_of_not_step {i : Instr} (hi : ¬(i = .step ∨ i = .trystep)) (s : State) :
    effect i s = s ∨ ∃ a, effect i s = s.offer a := by
  cases i with
  | pfromraw | pappend | preverse | pstep | idle => exact .inl rfl
  | enqueue a | tryenqueue a => exact .inr ⟨a, rfl⟩
  | step | trystep => simp at hi

theorem effect_cases (i : Instr) (s : State) :
    effect i s = s ∨ (∃ a, effect i s = s.offer a) ∨ effect i s = s.advance := by
  by_cases hi : i = .step ∨ i = .trystep
  · exact .inr (.inr (effect_of_step hi s))
  · exact (effect_of_not_step hi s).imp_right .inl

theorem effect_responses (i : Instr) (s : State) : (effect i s).responses = s.responses := by
  rcases effect_cases i s with h | ⟨a, h⟩ | h <;> simp [h]

theorem effect_errWidth (i : Instr) (s : State) : (effect i s).errWidth = s.errWidth := by
  rcases effect_cases i s with h | ⟨a, h⟩ | h <;> simp [h]

/-! ### What is answered (R75, R191, R197) -/

theorem reply_tryenqueue_room {s : State} (h : s.q.length < s.capacity) (a : Pattern) :
    reply (.tryenqueue a) s = .done := if_pos (hasRoom_iff.2 h)

theorem reply_tryenqueue_full {s : State} (h : ¬s.q.length < s.capacity) (a : Pattern) :
    reply (.tryenqueue a) s = ⟨.full, false, a, 0⟩ := if_neg (mt hasRoom_iff.1 h)

theorem reply_trystep (s : State) : reply .trystep s = pinReport s.pinAnswer := rfl

/-- Every command but TRYENQUEUE and TRYSTEP answers OK with no error value. -/
theorem reply_ok {i : Instr} (s : State) (he : ∀ a, i ≠ .tryenqueue a) (ht : i ≠ .trystep) :
    (reply i s).status = .ok ∧ (reply i s).err = 0 := by
  cases i with
  | pfromraw | pappend | preverse | pstep | enqueue | step | idle => exact ⟨rfl, rfl⟩
  | tryenqueue a => exact absurd rfl (he a)
  | trystep => exact absurd rfl ht

/-- The three kinds of answers: of TRYENQUEUE, of TRYSTEP, and of the seven commands that report no condition. -/
theorem tryenqueue_or_trystep_or_neither (i : Instr) :
    (∃ a, i = .tryenqueue a) ∨ i = .trystep ∨ (∀ a, i ≠ .tryenqueue a) ∧ i ≠ .trystep := by
  by_cases he : ∃ a, i = .tryenqueue a
  · exact .inl he
  · by_cases ht : i = .trystep
    · exact .inr (.inl ht)
    · exact .inr (.inr ⟨fun a h => he ⟨a, h⟩, ht⟩)

/-- The conditions of R191 with their causes. -/
theorem reply_status (i : Instr) (s : State) :
    ((reply i s).status = .full ↔ (∃ a, i = .tryenqueue a) ∧ s.capacity ≤ s.q.length) ∧
    ((reply i s).status = .pinerr ↔ i = .trystep ∧ ∃ e, s.pinAnswer = .err e) ∧ (reply i s).status ≠ .illegal := by
  rcases tryenqueue_or_trystep_or_neither i with ⟨a, rfl⟩ | rfl | ⟨he, ht⟩
  · by_cases hroom : s.q.length < s.capacity
    · simp [reply_tryenqueue_room hroom, Response.done, hroom]
    · simp [reply_tryenqueue_full hroom, Nat.not_lt.1 hroom]
  · rcases pinAnswer_cases s with h | ⟨e, -, h⟩ <;> simp [reply_trystep, h, pinReport_ok, pinReport_err]
  · simp [(reply_ok s he ht).1, he, ht]

/-- Every answer has the form of R75; an error value is one the pin gave, so it fits. -/
theorem reply_wellFormed (i : Instr) (s : State) : (reply i s).wellFormed s.errWidth = true := by
  rcases tryenqueue_or_trystep_or_neither i with ⟨a, rfl⟩ | rfl | ⟨he, ht⟩
  · by_cases hroom : s.q.length < s.capacity
    · rw [reply_tryenqueue_room hroom]; rfl
    · rw [reply_tryenqueue_full hroom]; rfl
  · rcases pinAnswer_cases s with h | ⟨e, hfits, h⟩
    · rw [reply_trystep, h]; rfl
    · simp [reply_trystep, h, pinReport, Response.wellFormed, hfits]
  · obtain ⟨hstatus, herr⟩ := reply_ok s he ht
    simp [Response.wellFormed, hstatus, herr]

end Sys2Proof.Machine

open Sys2Proof Sys2Proof.Machine

/-- Settles O13: NEW and the step commands end in one drive event, which uses up an answer; an offer does not. -/
theorem eachDriveEventUsesUpOneAnswer : Obligations.EachDriveEventUsesUpOneAnswer := by
  refine ⟨fun s al rest hi => ⟨_, step_of_inputs_new hi, by simp⟩, fun s i => ⟨_, exec_eq i s, fun hi => ?_, fun hi => ?_⟩⟩
  · simp [effect_of_step hi]
  · rcases effect_of_not_step hi s with h | ⟨a, h⟩ <;> simp [h]

/-- Settles O31: the checked command and the best-effort one have the same effect, and differ in the answer. -/
theorem bestEffortCommandsDifferOnlyInTheResponse : Obligations.BestEffortCommandsDifferOnlyInTheResponse := fun s =>
  ⟨fun a => ⟨s.offer a, reply (.tryenqueue a) s, exec_eq .., exec_eq (.enqueue a) s⟩,
    s.advance, reply .trystep s, exec_eq .., exec_eq .step s⟩

/-- Settles O43: no effect adds a response, and the one answer has the status of its condition. -/
theorem eachConditionHasOneReporterAndOneCause : Obligations.EachConditionHasOneReporterAndOneCause := fun s i =>
  ⟨_, reply i s, exec_eq i s, by rw [respond_responses, effect_responses], reply_status i s⟩

/-- Settles O20: PSTEP answers what `pstep` gives, and rotation moves bit `k + 1` to `k` and bit 0 to 31. -/
theorem pstepExtractsBitZeroAndRotates : Obligations.PstepExtractsBitZeroAndRotates := by
  refine ⟨fun _ h => decode_pstep h, fun a s => ⟨(pstep a).2, exec_eq (.pstep a) s, pstep_used a, ?_, fun k hk => ?_⟩⟩
  · rw [pstep_raw, ror32_getLsbD _ _ (by decide), if_pos rfl]
  · rw [pstep_raw, ror32_getLsbD _ _ (by omega), if_neg (by omega)]

end

section
/-! 10_state.md R34: the invariant, kept by each operation a step is made of. -/

namespace Sys2Proof.Machine

variable {s t : State} {r : Response} {i : Instr}

/-- A step transition removes patterns from the head of the queue only (R25, R53). -/
theorem seqStep_q_suffix (s : State) : (seqStep s).2.q <:+ s.q := by
  rcases seqStep_slotAfter s with ⟨c, -, -, hq, -⟩ | ⟨-, -, -, hq, -⟩ | ⟨z, p, rest, -, hqs, -, -, -, hq, -⟩
  · exact hq ▸ List.suffix_refl _
  · exact hq ▸ List.nil_suffix
  · exact ⟨z ++ [p], by rw [hq, hqs, List.append_assoc, List.singleton_append]⟩

theorem offer_q_length_le (a : Pattern) (h : s.q.length ≤ s.capacity) : (s.offer a).q.length ≤ s.capacity := by
  rw [offer_q]
  split
  next hroom => rw [List.length_append]; exact hroom
  next => exact h

theorem withInputs_inv (h : s.Inv) (rest : List Input) : (s.withInputs rest).Inv := h

theorem respond_inv (h : s.Inv) (hr : r.wellFormed s.errWidth = true) : (s.respond r).Inv := by
  obtain ⟨hreset, hq, hcur, hpin, hresp⟩ := h
  exact ⟨hreset, hq, hcur, by rwa [respond_drives], by simp [hr, hresp]⟩

theorem offer_inv (h : s.Inv) (a : Pattern) : (s.offer a).Inv := by
  obtain ⟨hreset, hq, hcur, hpin, hresp⟩ := h
  exact ⟨by rwa [offer_wasReset], by rw [offer_capacity]; exact offer_q_length_le a hq, by rwa [offer_cur],
    by rwa [offer_drives, offer_pinLvl], by rwa [offer_responses, offer_errWidth]⟩

theorem advance_inv (h : s.Inv) : s.advance.Inv := by
  obtain ⟨hreset, hq, -, -, hresp⟩ := h
  exact ⟨hreset, (seqStep_q_suffix s).length_le.trans hq, seqStep_cur_valid s, by simp, by rwa [advance_responses]⟩

/-- NEW needs nothing of the state it is asserted in but well-formed responses. -/
theorem renew_inv (hresp : s.responses.all (Response.wellFormed s.errWidth) = true) (al : Bool) : (s.renew al).Inv :=
  ⟨rfl, by simp, rfl, by simp, by rwa [renew_responses]⟩

theorem effect_inv (h : s.Inv) (i : Instr) : (effect i s).Inv := by
  rcases effect_cases i s with he | ⟨a, he⟩ | he <;> rw [he]
  · exact h
  · exact offer_inv h a
  · exact advance_inv h

theorem exec_inv (h : s.Inv) (i : Instr) (he : exec i s = .next t) : t.Inv := by
  cases (exec_eq i s).symm.trans he
  exact respond_inv (effect_inv h i) (by rw [effect_errWidth]; exact reply_wellFormed i s)

theorem step_inv (h : s.Inv) (he : step s = .next t) : t.Inv := by
  rcases step_cases s with ⟨-, e⟩ | ⟨al, rest, -, e⟩ | ⟨w, rest, -, -, e⟩ | ⟨w, rest, i, -, -, -, e⟩ |
    ⟨w, rest, d, -, -, -, e⟩ <;> rw [e] at he
  · cases he; exact h
  · obtain ⟨-, -, -, -, hresp⟩ := h
    cases he
    exact renew_inv hresp al
  · cases he
  · exact exec_inv (withInputs_inv h rest) i he
  · cases he; exact respond_inv (withInputs_inv h rest) rfl

end Sys2Proof.Machine

open Sys2Proof Sys2Proof.Machine

/-- Settles O45: each input performs operations that keep the invariant. -/
theorem stepKeepsTheInvariant : Obligations.StepKeepsTheInvariant := fun _ _ h he => step_inv h he

/-- Settles O46: the values of the reset table, evaluated. -/
theorem resetHasTheInvariant : Obligations.ResetHasTheInvariant := by
  unfold Obligations.ResetHasTheInvariant
  decide

/-- Settles O47: NEW writes everything the invariant speaks of but the responses. -/
theorem newEstablishesTheInvariant : Obligations.NewEstablishesTheInvariant := fun _ al _ hi hresp =>
  ⟨_, step_of_inputs_new hi, renew_inv hresp al⟩

end

section
/-! 20_memory.md R60, 60_exceptions.md R190: what one step takes, and what it leaves alone. -/

namespace Sys2Proof.Machine

variable {s t : State} {w : CmdWord} {rest : List Input} {i : Instr}

theorem step_of_inputs_command_unreset (hi : s.inputs = .command w :: rest) (hr : s.wasReset = false) :
    step s = .refused .beforeFirstReset := by
  simp [step, State.takeInput, hi, hr]

theorem decode_of_decodeTableWord {nbits n : Nat} (h : decodeTableWord nbits n = some i) :
    decode (tableWord nbits n) = .ok i := by
  unfold decodeTableWord at h
  cases hd : decode (tableWord nbits n) with
  | ok j => rw [hd] at h; cases h; rfl
  | error e => rw [hd] at h; cases h

/-- Once the block has been reset, every input leads to a next state (R190). -/
theorem step_total (hr : s.wasReset = true) : ∃ t, step s = .next t := by
  rcases step_cases s with ⟨-, e⟩ | ⟨al, rest, -, e⟩ | ⟨w, rest, -, hr', -⟩ | ⟨w, rest, i, -, -, -, e⟩ |
    ⟨w, rest, d, -, -, -, e⟩
  · exact ⟨_, e⟩
  · exact ⟨_, e⟩
  · cases hr.symm.trans hr'
  · exact ⟨_, e.trans (exec_eq i _)⟩
  · exact ⟨_, e⟩

/-- What a step that took no NEW has done: nothing, or one of the three command effects with an answer. -/
theorem step_next_cases_of_not_new (h : step s = .next t) (hnew : ∀ al rest, s.inputs ≠ .new al :: rest) :
    t = s ∨ ∃ rest, (∃ r, t = (s.withInputs rest).respond r) ∨ (∃ a r, t = ((s.withInputs rest).offer a).respond r) ∨
      ∃ r, t = (s.withInputs rest).advance.respond r := by
  rcases step_next_cases s t h with ⟨-, h⟩ | ⟨al, rest, hi, -⟩ | ⟨w, rest, -, h⟩
  · exact .inl h
  · exact absurd hi (hnew al rest)
  · exact .inr ⟨rest, h⟩

theorem eq_renew_of_step_new {al : Bool} (hi : s.inputs = .new al :: rest) (h : step s = .next t) :
    t = (s.withInputs rest).renew al := by
  cases (step_of_inputs_new hi).symm.trans h
  rfl

/-- An offer appends one pattern to the queue, or leaves it (R135). -/
theorem offer_q_cases (s : State) (a : Pattern) : (s.offer a).q = s.q ++ [a] ∨ (s.offer a).q = s.q := by
  rw [offer_q]
  split
  · exact .inl rfl
  · exact .inr rfl

end Sys2Proof.Machine

open Sys2Proof Sys2Proof.Machine

/-- Settles O8: the word taken is decoded and run; a word placed in front is the word taken. -/
theorem stepPerformsTheDecodedCommand : Obligations.StepPerformsTheDecodedCommand := by
  refine ⟨fun s w rest i hi hr hd => ?_, fun s nbits w i hd => ?_⟩
  · exact (step_of_inputs_command hi hr).trans (runWord_of_decode_ok hd _)
  · exact (step_of_inputs_command (issue_inputs ..) (issue_wasReset ..)).trans
      (runWord_of_decode_ok (decode_of_decodeTableWord hd) _)

/-- Settles O10: with no input there is nothing to take. -/
theorem nothingChangesBetweenCommands : Obligations.NothingChangesBetweenCommands := fun _ => step_of_inputs_nil

/-- Settles O11: a command word is not run while the block has never been reset. -/
theorem commandBeforeTheFirstResetIsRefused : Obligations.CommandBeforeTheFirstResetIsRefused := fun _ _ _ =>
  step_of_inputs_command_unreset

/-- Settles O14: the values of the reset table, field by field. -/
theorem resetLeavesTheValuesOfTheTable : Obligations.ResetLeavesTheValuesOfTheTable :=
  ⟨rfl, rfl, rfl, rfl, rfl, rfl, rfl, rfl⟩

/-- Settles O15: every input leads to a next state, and none clears the bit. -/
theorem noStepStopsAResetBlock : Obligations.NoStepStopsAResetBlock := fun _ hr =>
  let ⟨t, h⟩ := step_total hr
  ⟨t, h, step_keeps_wasReset hr h⟩

/-- Settles O16: no operation touches the parameters, and only taking the input touches the inputs. -/
theorem stepTakesOneInputAndKeepsTheParameters : Obligations.StepTakesOneInputAndKeepsTheParameters := by
  intro s t h
  rcases step_next_cases s t h with ⟨hi, rfl⟩ | ⟨al, rest, hi, rfl⟩ |
    ⟨w, rest, hi, ⟨r, rfl⟩ | ⟨a, r, rfl⟩ | ⟨r, rfl⟩⟩ <;> simp [hi]

/-- Settles O40: NEW and the step transition end in a drive to the level they leave; the rest drives nothing. -/
theorem pinLevelHoldsBetweenDrives : Obligations.PinLevelHoldsBetweenDrives := by
  intro s t h
  rcases step_next_cases s t h with ⟨-, rfl⟩ | ⟨al, rest, -, rfl⟩ |
    ⟨w, rest, -, ⟨r, rfl⟩ | ⟨a, r, rfl⟩ | ⟨r, rfl⟩⟩
  · exact .inl ⟨rfl, rfl⟩
  · exact .inr (by simp [State.pinLevelO])
  · exact .inl (by simp [State.pinLevelO])
  · exact .inl (by simp [State.pinLevelO])
  · exact .inr (by simp [State.pinLevelO])

/-- Settles O41: NEW writes the strap; an answer, an offer and a step transition leave the polarity. -/
theorem polarityChangesOnlyByNew : Obligations.PolarityChangesOnlyByNew := by
  refine fun s t h => ⟨fun al rest hi => ?_, fun hnew => ?_⟩
  · rw [eq_renew_of_step_new hi h, renew_activeLow]
  · rcases step_next_cases_of_not_new h hnew with rfl | ⟨rest, ⟨r, rfl⟩ | ⟨a, r, rfl⟩ | ⟨r, rfl⟩⟩ <;> simp

/-- Settles O42: NEW empties the queue, an offer appends, a step transition removes from the head. -/
theorem queueChangesOnlyAtItsEnds : Obligations.QueueChangesOnlyAtItsEnds := by
  refine fun s t h => ⟨fun al rest hi => ?_, fun hnew => ?_⟩
  · rw [eq_renew_of_step_new hi h, renew_q]
  · rcases step_next_cases_of_not_new h hnew with rfl | ⟨rest, ⟨r, rfl⟩ | ⟨a, r, rfl⟩ | ⟨r, rfl⟩⟩
    · exact .inr (List.suffix_refl _)
    · exact .inr (List.suffix_refl _)
    · rcases offer_q_cases (s.withInputs rest) a with hq | hq
      · exact .inl ⟨a, hq⟩
      · exact .inr (hq ▸ List.suffix_refl _)
    · exact .inr (seqStep_q_suffix (s.withInputs rest))

end

section
/-! 40_pattern_ops.md R107, 10_state.md R34 (I-4), 41_sequencer_ops.md R146 and R147: what repeated extraction gives, and
what of a pattern is played. -/

namespace Sys2Proof.Machine

variable {s : State} {c : Slot} {p : Pattern}

theorem pstepIter_bit_zero (p : Pattern) (k : Nat) : (pstep (pstepIter k p)).1 = p.raw.getLsbD (k % 32) := by
  rw [pstep_fst, pstepIter_getLsbD k p 0 (by decide), Nat.zero_add]

/-- A rotation of all 32 bits by 32 places is none. -/
theorem pstepIter_thirtyTwo (p : Pattern) : pstepIter 32 p = p := by
  refine pattern_ext (raw_ext fun k hk => ?_) (pstepIter_used 32 p)
  rw [pstepIter_getLsbD 32 p k hk, Nat.add_mod_right, Nat.mod_eq_of_lt hk]

/-- The slot left after extraction number `n` is a copy of the pattern if what was there was (I-4). -/
theorem copyOf_of_slotAfter {raw : Raw} {used : Used} {n : Nat} (hc : slotAfter raw used (n + 1) = some c)
    (hused : used = p.used) (hraw : raw = (pstepIter n p).raw) : c.copyOf p := by
  rcases Nat.lt_or_ge (n + 1) (min used.toNat 32) with hlt | hge
  · rw [slotAfter_of_lt hlt] at hc
    cases hc
    have hcursor : (BitVec.ofNat 6 (n + 1)).toNat = n + 1 := by
      rw [BitVec.toNat_ofNat]; exact Nat.mod_eq_of_lt (by omega)
    refine ⟨hused, ?_⟩
    rw [hcursor, pstepIter_succ_raw, ← hraw]
    rfl
  · rw [slotAfter_of_le hge] at hc
    cases hc

/-- What the step transition leaves current is a copy of a queued pattern, or of what was current a copy of. -/
theorem seqStep_cur_copyOf (hc : (seqStep s).2.cur = some c) :
    (s.cur = none ∧ ∃ p ∈ s.q, c.copyOf p) ∨ ∃ c', s.cur = some c' ∧ ∀ p, c'.copyOf p → c.copyOf p := by
  rcases seqStep_slotAfter s with ⟨c', hcur, -, -, h⟩ | ⟨-, -, -, -, h⟩ | ⟨z, p, rest, hcur, hq, -, -, -, -, h⟩ <;>
    rw [h] at hc
  · exact .inr ⟨c', hcur, fun p ⟨hused, hraw⟩ => copyOf_of_slotAfter hc hused hraw⟩
  · cases hc
  · exact .inl ⟨hcur, p, by simp [hq], copyOf_of_slotAfter (n := 0) hc rfl rfl⟩

/-- What is to be played depends on a queued pattern through its steps only (R146). -/
theorem playlist_congr_at (s : State) (pre post : List Pattern) {a b : Pattern} (h : a.steps = b.steps) :
    ({ s with q := pre ++ a :: post } : State).playlist = ({ s with q := pre ++ b :: post } : State).playlist := by
  simp only [playlist_eq, List.flatMap_append, List.flatMap_cons, h]

end Sys2Proof.Machine

open Sys2Proof Sys2Proof.Machine

/-- Settles O25: extraction `k` gives bit `k mod 32`, and the bits of a canonical pattern above its length are clear. -/
theorem repeatedPstepIsCyclicOverThirtyTwo : Obligations.RepeatedPstepIsCyclicOverThirtyTwo := by
  refine ⟨pstepIter_bit_zero, pstepIter_thirtyTwo, fun p k hp hk hk32 => ?_, fun p => ?_⟩
  · rw [pstep_pstepIter_fst p hk32, canonical_high hp k (by rwa [canonical_len hp])]
  · rw [pstepIter_thirtyTwo]

/-- Settles O35: an accepted offer appends the pattern to the queue, and so its steps to what is to be played. -/
theorem enqueueAddsItsStepsLast : Obligations.EnqueueAddsItsStepsLast := by
  intro s a i hi
  obtain ⟨r, hexec⟩ := exec_of_enqueue hi s
  refine ⟨_, hexec, ?_⟩
  rw [playlist_eq, playlist_eq, respond_cur, respond_q, offer_cur, offer_q]
  split
  · simp
  · rfl

/-- Settles O36: what step commands drive is a function of what is to be played, and that of the steps. -/
theorem bitsAboveTheLengthAreNeverPlayed : Obligations.BitsAboveTheLengthAreNeverPlayed := by
  refine ⟨fun s pre post a b cs hv hcs hlen hbits => ?_, fun a ha => ?_⟩
  · obtain ⟨t, ht, htdrives, -, -⟩ := stepCommandsPlayEverythingThenIdle { s with q := pre ++ a :: post } cs hv hcs
    obtain ⟨u, hu, hudrives, -, -⟩ := stepCommandsPlayEverythingThenIdle { s with q := pre ++ b :: post } cs hv hcs
    refine ⟨t, u, ht, hu, ?_⟩
    rw [htdrives, hudrives, playlist_congr_at s pre post (steps_congr a b hlen hbits)]
    rfl
  · rw [steps_length]
    exact Nat.min_eq_right ha

/-- Settles O37: only the step transition touches the slot. -/
theorem currentSlotStaysARotatedCopy : Obligations.CurrentSlotStaysARotatedCopy := by
  intro s t i he c hc
  cases (exec_eq i s).symm.trans he
  rw [respond_cur] at hc
  rcases effect_cases i s with h | ⟨a, h⟩ | h <;> rw [h] at hc
  · exact .inr ⟨c, hc, fun _ => id⟩
  · exact .inr ⟨c, by rwa [offer_cur] at hc, fun _ => id⟩
  · exact seqStep_cur_copyOf hc

/-- Settles O39: the level driven is `ACTIVE_LOW xor` bit 0 of the slot (R170). -/
theorem polarityTableHolds : Obligations.PolarityTableHolds := by
  intro s c i hi hcur
  obtain ⟨r, hexec⟩ := exec_of_step hi s
  have hlevel : (s.advance.respond r).pinLvl = (s.activeLow ^^ c.raw.getLsbD 0) := by
    rw [respond_pinLvl, advance_pinLvl, seqStep_draining s c hcur]
  refine ⟨_, hexec, by simp, ?_⟩
  rw [hlevel]
  cases s.activeLow <;> cases c.raw.getLsbD 0 <;> decide

end
